-- ==== Sys2Proof/Word.lean ====
section
/-! DEFINITION. The value types of the engine (00_scope.md rules R10 to R14). -/

namespace Sys2Proof

/-- A byte (R10). -/
abbrev Byte := BitVec 8

/-- A 32-bit register or command word (R10, R90). -/
abbrev Word := BitVec 32

/-- A lane: one 64-bit word of the Keccak state (R10, R20). -/
abbrev Lane := BitVec 64

/-- A finite byte sequence (R14). -/
abbrev Bytes := List Byte

/-- The state array: 25 lanes, lane (x, y) at index x + 5y (R11, R20). -/
abbrev Lanes := Vector Lane 25

/-- A 136-byte block: IN, OUT and a padded message block (R25, R26, R160). -/
abbrev Block := Vector Byte 136

end Sys2Proof
end

