-- ==== Sys2Proof/Machine/ByteOrder.lean ====
section
/-! DEFINITION. Rotation, and the byte order of lanes and words (00_scope.md R12 to R14). -/

namespace Sys2Proof.Machine

/-- rotl64(a, n) for n in 0..63; a rotation by 0 is the identity (R13). -/
def rotl64 (a : Lane) (n : Nat) : Lane :=
  if n = 0 then a else (a <<< n) ||| (a >>> (64 - n))

/-- Byte k of a lane, v[8k+7:8k] (R14). -/
def laneByte (v : Lane) (k : Nat) : Byte := (v >>> (8 * k)).setWidth 8

/-- The lane with its byte k replaced (20_memory.md R55). -/
def setLaneByte (v : Lane) (k : Nat) (b : Byte) : Lane :=
  (v &&& ~~~((0xFF : Lane) <<< (8 * k))) ||| (b.setWidth 64 <<< (8 * k))

/-- The little-endian reading Σ b[k]·2^(8k) of at most 8 bytes (R14 le64, le32; 20_memory.md R64). -/
def leValue : Bytes → Lane
  | [] => 0
  | b :: bs => b.setWidth 64 ||| (leValue bs <<< 8)

/-- The n low bytes of v, least significant first (R14; 20_memory.md R64). -/
def leBytes (n : Nat) (v : Lane) : Bytes := (List.range n).map (laneByte v)

/-- le64bytes (R14). -/
def le64bytes (v : Lane) : Bytes := leBytes 8 v

/-- le64 (R14). -/
def le64 (b : Bytes) : Lane := leValue b

/-- be32bytes: v[31:24], v[23:16], v[15:8], v[7:0] (R14). -/
def be32bytes (v : Word) : Bytes :=
  [v.extractLsb' 24 8, v.extractLsb' 16 8, v.extractLsb' 8 8, v.extractLsb' 0 8]

/-- Byte k of a 32-bit register at the byte's own offset (20_memory.md R64). -/
def wordByte (w : Word) (k : Nat) : Byte := (w >>> (8 * k)).setWidth 8

/-- zeros(n) (R14). -/
def zeros (n : Nat) : Bytes := List.replicate n 0

/-- Byte k of a 136-byte buffer. -/
def blockByte (b : Block) (k : Nat) : Byte := b.toList.getD k 0

/-- The 136-byte buffer of 136 zero bytes. -/
def zeroBlock : Block := Vector.replicate 136 0

/-- S[i] of a state array (R11). -/
def lane (A : Lanes) (i : Nat) : Lane := A.toList.getD i 0

/-- The state array with a given lane at each index (R11). -/
@[irreducible] def mkLanes (f : Nat → Lane) : Lanes := Vector.ofFn fun i => f i.val

/-- The zero state array: 25 lanes of 0. -/
def zeroLanes : Lanes := Vector.replicate 25 0

end Sys2Proof.Machine
end

