-- ==== Sys2Proof/Config.lean ====
section
/-! DEFINITION. What an implementation fixes (the size of DMEM) and the free values the spec leaves open
(93_implementation_defined.md). -/

namespace Sys2Proof.Config

/-- The parameter DMEM_BYTES (00_scope.md R6): a power of two from 2^8 to 2^24; `step` counts from 2^8. -/
structure DmemSize where
  step : Fin 17
  deriving DecidableEq, Repr

/-- log2(DMEM_BYTES), what CONFIG[7:0] reports (R6, R35). -/
abbrev DmemSize.log2 (d : DmemSize) : Nat := 8 + d.step.val

/-- DMEM_BYTES (R6). -/
abbrev DmemSize.bytes (d : DmemSize) : Nat := 2 ^ d.log2

/-- The reference configuration, 2^16 bytes (R6). Log entry 5. -/
def DmemSize.reference : DmemSize := ⟨8⟩

/-! The free values. The first argument of each is BASE, the only thing that tells one engine instance from another
(00_scope.md R7, 60_exceptions.md R243), so that no law ties the values of two instances of a platform together. That a
free value is a function of BASE and of a count, and not of the run, is the model's choice: log entry 21. -/

/-- FREE VALUE: the power-up contents of the byte of DMEM at an address, one value per byte, fixed at a reset; of the
instance at BASE, the number of the reset, and the address (R37, R260; 93 U2, U12). Log entries 3, 21. -/
opaque dmemByte : Nat → Nat → Nat → Byte

/-- FREE VALUE: what a read of an unspecified register or window answers while BUSY = 1, a fresh one for each read; of the
instance at BASE and the number of the draw (R70; 93 U1). Log entries 4, 21. -/
opaque busyRead : Nat → Nat → Lane

/-- FREE VALUE: how many host statements come between acceptance and completion of a command; of the instance at BASE and
the number of the draw (R8; 93 U4). Log entries 2, 21. -/
opaque latency : Nat → Nat → Nat

/-- FREE VALUE: what a variable of the host's program holds before the program assigns it (R98 is silent); of the instance
at BASE and the variable. Log entries 10, 21. -/
opaque hostVar : Nat → Nat → Lane

end Sys2Proof.Config
end

