-- ==== Sys2Proof/Syntax.lean ====
section
/-! DEFINITION. The fifteen commands (30_encoding.md R94), the error codes (60_exceptions.md R231) and the statements of
a host program (30_encoding.md R98). -/

namespace Sys2Proof

/-- A command with its immediate (R92, R94): `round` and `iota` carry the round index r, `final` the length L. -/
inductive Instr where
  | nop
  | clear
  | permute
  | round (r : Byte)
  | theta
  | rhopi
  | chi
  | iota (r : Byte)
  | init
  | absorb
  | final (len : Byte)
  | squeeze
  | hash
  | pack
  | proofid
  deriving DecidableEq, Repr

/-- An assigned opcode, without its immediate (R94). -/
inductive Opcode where
  | nop | clear | permute | round | theta | rhopi | chi | iota | init | absorb | final | squeeze | hash | pack | proofid
  deriving DecidableEq, Repr

/-- The values ERRCODE takes, and no others (R231). -/
inductive ErrCode where
  | noError | illegalOpcode | reservedBits | badLen | badRound | phase | format | range | overlap
  deriving DecidableEq, Repr

/-- The width of a host access: 1, 2, 4 or 8 bytes (20_memory.md R50). -/
inductive Width where
  | w1 | w2 | w4 | w8
  deriving DecidableEq, Repr

/-- The control registers by name (20_memory.md R53), as SETREG names them (R99). -/
inductive RegName where
  | id | version | config | cmd | status | errCmd | blkCnt
  | srcAddr | srcLen | piAddr | piLen | pfAddr | pfLen | dstAddr | fields | blobLen
  deriving DecidableEq, Repr

/-- What an EXPECT statement compares: a number, a variable, or a variable under a mask (R98, R99 CHECK).
That it is one of these three is the model's choice, log entry 18. -/
inductive HostExpr where
  | const (c : Lane)
  | var (t : Nat)
  | masked (t : Nat) (mask : Lane)
  deriving DecidableEq, Repr

/-- A statement of a host program (R98). Variables are numbered; a label is the index of the statement it names. R98
does not say whether the value of a W statement, the mask of BNZ and BZ, the value EXPECT compares with, or an offset may
be a variable: that each of them is a number is the model's choice, log entry 18. -/
inductive HostStmt where
  | write (n : Width) (off : Nat) (v : Lane)
  | read (n : Width) (off : Nat) (t : Nat)
  | bnz (t : Nat) (mask : Lane) (label : Nat)
  | bz (t : Nat) (mask : Lane) (label : Nat)
  | expect (e : HostExpr) (v : Lane)
  deriving DecidableEq, Repr

end Sys2Proof
end

