-- ==== Sys2Proof/Machine/State.lean ====
section
/-! DEFINITION. The state of one engine instance and of the host that drives it (10_state.md), its reset value
(70_reset_and_hazards.md R260), and the reasons a step can stop. -/

namespace Sys2Proof.Machine

/-- PHASE (R24): IDLE = 0, ABSORBING = 1, SQUEEZED = 2; the value 3 is never held. -/
inductive Phase where
  | idle | absorbing | squeezed
  deriving DecidableEq, Repr

/-- What stands outside the engine and is data of the model: the host agent (20_memory.md R50, 30_encoding.md R98), the
schedule (00_scope.md R8) and the reset input (70_reset_and_hazards.md R260). Log entries 1, 2, 8. -/
structure Env where
  /-- The host's program. -/
  prog : List HostStmt
  /-- The index of the host's next statement. -/
  hpc : Nat
  /-- The host program's variables, by number, rising; an unlisted one is `Config.hostVar`. -/
  vars : List (Nat × Lane)
  /-- Host statements still to come before the command in flight completes. -/
  wait : Nat
  /-- Latencies the outside has fixed for the coming commands; when empty, `Config.latency` is drawn. -/
  schedule : List Nat
  /-- How many free values have been drawn. -/
  draws : Nat
  /-- The platform asserts reset. -/
  resetReq : Bool
  deriving DecidableEq, Repr

/-- The whole state (10_state.md section 6). -/
structure State where
  /-- BUSY (R27). -/
  busy : Bool
  /-- PHASE (R24). -/
  phase : Phase
  /-- The CMD latch (R28). -/
  cmd : Word
  /-- ERR (R29). -/
  err : Bool
  /-- ERRCODE (R29, R231). -/
  errCode : ErrCode
  /-- WDROP (R30). -/
  wdrop : Bool
  /-- ERRCMD (R31). -/
  errCmd : Word
  /-- S[0..24] (R20). -/
  lanes : Lanes
  /-- IN[0..135] (R25). -/
  inBuf : Block
  /-- OUT[0..135] (R26). -/
  outBuf : Block
  /-- BLKCNT (R32). -/
  blkCnt : Word
  /-- SRC_ADDR (R33). -/
  srcAddr : Word
  /-- SRC_LEN (R33). -/
  srcLen : Word
  /-- PI_ADDR (R33). -/
  piAddr : Word
  /-- PI_LEN (R33). -/
  piLen : Word
  /-- PF_ADDR (R33). -/
  pfAddr : Word
  /-- PF_LEN (R33). -/
  pfLen : Word
  /-- DST_ADDR (R33). -/
  dstAddr : Word
  /-- FIELDS (R34). -/
  fields : Word
  /-- BLOB_LEN (R34). -/
  blobLen : Word
  /-- The parameter BASE of this instance (00_scope.md R7): the physical address of offset 0 of its aperture. -/
  base : Nat
  /-- The parameter DMEM_BYTES of this machine (00_scope.md R6), reported by CONFIG (R35). -/
  dmemSize : Config.DmemSize
  /-- DMEM (R37): the bytes written since reset, addresses rising. -/
  dmem : List Host.Cell
  /-- Which power-up contents the unlisted bytes of DMEM have (`Config.dmemByte`). -/
  dmemGen : Nat
  /-- The host, the schedule and the reset input. -/
  env : Env
  deriving DecidableEq, Repr

/-- Why a step stops. -/
inductive Fault where
  /-- Raised by a host access that 20_memory.md R52, R61 or R63 forbids (R62, R236; 93 U3). Safe: the spec has a
  model treat it as a fault of the host's step. -/
  | busError (off : Nat) (n : Nat)
  /-- Raised by a host access at or above offset 0x2000000, which is not this engine's (R61; 93 U11). Safe: the
  platform's answer is unknown. -/
  | outsideAperture (off : Nat)
  /-- Raised by an EXPECT statement of the host's program that does not hold (30_encoding.md R98: the program fails).
  Safe: the program stops. -/
  | expectFailed (at_ : Nat)
  deriving DecidableEq, Repr

/-- Why an instruction has no meaning. -/
inductive Refusal where
  /-- Raised by `exec` for an instruction without a meaning; no arm of this model raises it. Safe. -/
  | notModelled (mnemonic : String)
  deriving DecidableEq, Repr

/-- The environment right after reset with nothing placed: no host program, nothing pending. Log entries 1, 2, 8. -/
def Env.initial : Env :=
  { prog := [], hpc := 0, vars := [], wait := 0, schedule := [], draws := 0, resetReq := false }

/-- The machine right after reset (R260), in the reference configuration (R6), at BASE 0 (log entries 5, 6). DMEM lists
nothing: each of its bytes is a free value (R37). -/
def State.reset : State :=
  { lanes := Vector.replicate 25 0
    phase := .idle
    inBuf := Vector.replicate 136 0
    outBuf := Vector.replicate 136 0
    busy := false
    cmd := 0
    err := false
    errCode := .noError
    wdrop := false
    errCmd := 0
    blkCnt := 0
    srcAddr := 0
    srcLen := 0
    piAddr := 0
    piLen := 0
    pfAddr := 0
    pfLen := 0
    dstAddr := 0
    fields := 0
    blobLen := 0
    base := 0
    dmemSize := Config.DmemSize.reference
    dmem := []
    dmemGen := 0
    env := Env.initial }

end Sys2Proof.Machine
end

