-- ==== Sys2Proof/Machine/Ops.lean ====
section
/-! DEFINITION. The named operations: memory, acceptance, completion, taking an error, reset. -/

namespace Sys2Proof.Machine

/-- The value listed for a key. -/
def cellLookup {α : Type} (k : Nat) : List (Nat × α) → Option α
  | [] => none
  | (j, v) :: rest => if j = k then some v else cellLookup k rest

/-- The list with a key's value written, keys rising. -/
def cellInsert {α : Type} (k : Nat) (v : α) : List (Nat × α) → List (Nat × α)
  | [] => [(k, v)]
  | (j, w) :: rest =>
    if k < j then (k, v) :: (j, w) :: rest
    else if k = j then (k, v) :: rest
    else (j, w) :: cellInsert k v rest

/-- Every key is at or above the bound, and keys rise strictly. -/
def cellsFrom {α : Type} : Nat → List (Nat × α) → Bool
  | _, [] => true
  | lo, (j, _) :: rest => decide (lo ≤ j) && cellsFrom (j + 1) rest

/-- The canonical form of DMEM: addresses strictly rising, each below DMEM_BYTES. An unlisted address holds no value
of its own (its byte is the free value of the last reset), so no entry can equal one. Log entry 3. -/
def Memory.wf (size : Nat) (m : List Host.Cell) : Bool :=
  cellsFrom 0 m && m.all fun c => decide (c.1 < size)

/-- DMEM_BYTES of this machine (00_scope.md R6). -/
abbrev dmemBytes (s : State) : Nat := s.dmemSize.bytes

/-- DMEM[a]: the byte written last, or the free value it had at the last reset (R37, R60). -/
def dmemRead (s : State) (a : Nat) : Byte :=
  (cellLookup a s.dmem).getD (Config.dmemByte s.base s.dmemGen a)

/-- DMEM[a] <- b (R60, R71). -/
def dmemWrite (a : Nat) (b : Byte) (s : State) : State := { s with dmem := cellInsert a b s.dmem }

/-- MemRead(a, n): the bytes DMEM[a..a+n) (R71). -/
def memRead (s : State) (a n : Nat) : Bytes := (List.range n).map fun k => dmemRead s (a + k)

/-- MemWrite(a, n, v): DMEM[a+k] <- v[k] (R71). -/
def memWrite (a : Nat) : Bytes → State → State
  | [], s => s
  | b :: bs, s => memWrite (a + 1) bs (dmemWrite a b s)

/-- Acceptance of a command word (40_control.md R110): CMD <- w, BUSY <- 1, ERR <- 0, ERRCODE <- 0, nothing else. -/
def accept (w : Word) (s : State) : State :=
  { s with cmd := w, busy := true, err := false, errCode := .noError }

/-- The latency of the command just accepted (00_scope.md R8): the next one the outside has fixed, else a free value. -/
def drawLatency (s : State) : State :=
  match s.env.schedule with
  | n :: rest => { s with env := { s.env with wait := n, schedule := rest } }
  | [] => { s with env := { s.env with wait := Config.latency s.base s.env.draws, draws := s.env.draws + 1 } }

/-- Completion (40_control.md R112, 60_exceptions.md R233): BUSY <- 0; ERR, ERRCODE and ERRCMD stay. -/
def complete (s : State) : State := { s with busy := false }

/-- Error recording, the engine's only trap entry (60_exceptions.md R232): ERR <- 1, ERRCODE <- code, ERRCMD <- the CMD
latch, BUSY <- 0, nothing else. There is no return from it (R239): the next acceptance clears ERR and ERRCODE. -/
def raiseError (code : ErrCode) (s : State) : State :=
  { s with err := true, errCode := code, errCmd := s.cmd, busy := false }

/-- Reset (70_reset_and_hazards.md R260, R261): every element of the engine takes its reset value and DMEM new free
values; a command in flight is abandoned. BASE, DMEM_BYTES and what stands outside the engine stay. Log entry 8. -/
def platformReset (s : State) : State :=
  { State.reset with
    base := s.base
    dmemSize := s.dmemSize
    dmemGen := s.dmemGen + 1
    env := { s.env with resetReq := false } }

/-- A command word accepted with the engine's step due next and no reset pending. Log entry 9. -/
def placeCommand (w : Word) (s : State) : State :=
  { accept w s with env := { s.env with wait := 0, resetReq := false } }

end Sys2Proof.Machine
end

