-- ==== Sys2Proof/Machine/Control.lean ====
section
/-! DEFINITION. The control commands (40_control.md R113, R114). -/

namespace Sys2Proof.Machine

/-- S, OUT and BLKCNT to 0 and PHASE set: what CLEAR and INIT share (R114; 42_sponge.md R168). -/
def startPhase (p : Phase) (s : State) : State :=
  { s with lanes := zeroLanes, outBuf := zeroBlock, blkCnt := 0, phase := p }

/-- NOP (R113): no effect but the completion. -/
def execNop (s : State) : Host.Outcome State Fault Refusal := .next (complete s)

/-- CLEAR (R114): the sponge back to IDLE. -/
def execClear (s : State) : Host.Outcome State Fault Refusal := .next (complete (startPhase .idle s))

end Sys2Proof.Machine
end

