-- ==== Sys2Proof/Machine/Operands.lean ====
section
/-! DEFINITION. The operand forms: the operand registers (10_state.md R33), the range checks on DMEM (20_memory.md R72,
R73), and the immediate (30_encoding.md R92). -/

namespace Sys2Proof.Machine

/-- The operand value of an immediate: zero-extended, neither scaled nor shifted (R92). -/
abbrev immValue (m : Byte) : Nat := m.toNat

/-- InRange(a, n): a + n ≤ DMEM_BYTES over the naturals (R72). -/
def inRange (s : State) (a n : Nat) : Bool := decide (a + n ≤ dmemBytes s)

/-- Overlap of the ranges (a, n) and (b, m) (R73). -/
def overlap (a n b m : Nat) : Bool :=
  decide (0 < n) && decide (0 < m) && decide (a < b + m) && decide (b < a + n)

/-- The message of HASH, DMEM[SRC_ADDR .. SRC_ADDR + SRC_LEN) (42_sponge.md R172). -/
def srcBytes (s : State) : Bytes := memRead s s.srcAddr.toNat s.srcLen.toNat

/-- The public inputs, DMEM[PI_ADDR .. PI_ADDR + PI_LEN) (43_packer.md R206). -/
def piBytes (s : State) : Bytes := memRead s s.piAddr.toNat s.piLen.toNat

/-- The proof, DMEM[PF_ADDR .. PF_ADDR + PF_LEN) (43_packer.md R206). -/
def pfBytes (s : State) : Bytes := memRead s s.pfAddr.toNat s.pfLen.toNat

/-- blen = 4 + PI_LEN + PF_LEN, a natural (43_packer.md R206). -/
abbrev blobLength (s : State) : Nat := 4 + s.piLen.toNat + s.pfLen.toNat

/-- The range check of HASH (42_sponge.md R172). -/
def srcInRange (s : State) : Bool := inRange s s.srcAddr.toNat s.srcLen.toNat

/-- The range check of the two sources of PACK and PROOFID (43_packer.md R206, R207). -/
def sourcesInRange (s : State) : Bool :=
  inRange s s.piAddr.toNat s.piLen.toNat && inRange s s.pfAddr.toNat s.pfLen.toNat

/-- The range check of PACK's destination (43_packer.md R206). -/
def destInRange (s : State) : Bool := inRange s s.dstAddr.toNat (blobLength s)

/-- PACK's destination overlaps a source (43_packer.md R206). -/
def destOverlaps (s : State) : Bool :=
  overlap s.dstAddr.toNat (blobLength s) s.piAddr.toNat s.piLen.toNat ||
    overlap s.dstAddr.toNat (blobLength s) s.pfAddr.toNat s.pfLen.toNat

/-- The format check of PACK and PROOFID: both lengths are multiples of 32 (43_packer.md R206, R207). -/
def formatOk (s : State) : Bool := decide (s.piLen.toNat % 32 = 0) && decide (s.pfLen.toNat % 32 = 0)

end Sys2Proof.Machine
end

