-- ==== Sys2Proof/Machine/Permutation.lean ====
section
/-! DEFINITION. Keccak-f[1600] and the permutation commands (41_permutation.md). -/

namespace Sys2Proof.Machine

/-- RC[r], row by row of the table of R120; there is no other row. Log entry 12. -/
def roundConstant : Nat → Lane
  | 0 => 0x0000000000000001
  | 1 => 0x0000000000008082
  | 2 => 0x800000000000808A
  | 3 => 0x8000000080008000
  | 4 => 0x000000000000808B
  | 5 => 0x0000000080000001
  | 6 => 0x8000000080008081
  | 7 => 0x8000000000008009
  | 8 => 0x000000000000008A
  | 9 => 0x0000000000000088
  | 10 => 0x0000000080008009
  | 11 => 0x000000008000000A
  | 12 => 0x000000008000808B
  | 13 => 0x800000000000008B
  | 14 => 0x8000000000008089
  | 15 => 0x8000000000008003
  | 16 => 0x8000000000008002
  | 17 => 0x8000000000000080
  | 18 => 0x000000000000800A
  | 19 => 0x800000008000000A
  | 20 => 0x8000000080008081
  | 21 => 0x8000000000008080
  | 22 => 0x0000000080000001
  | 23 => 0x8000000080008008
  | _ => 0

/-- Row y of the table of R121; there is no other row. Log entry 12. -/
def rotationRow : Nat → List Nat
  | 0 => [0, 1, 62, 28, 27]
  | 1 => [36, 44, 6, 55, 20]
  | 2 => [3, 10, 43, 25, 39]
  | 3 => [41, 45, 15, 21, 8]
  | 4 => [18, 2, 61, 56, 14]
  | _ => []

/-- ROT[i], with i = x + 5y (R121). -/
def rotationOffset (i : Nat) : Nat := (rotationRow (i / 5)).getD (i % 5) 0

/-- The column parity C[x] (R122). -/
def columnParity (A : Lanes) (x : Nat) : Lane :=
  lane A x ^^^ lane A (x + 5) ^^^ lane A (x + 10) ^^^ lane A (x + 15) ^^^ lane A (x + 20)

/-- The θ effect D[x] (R122). -/
def thetaEffect (A : Lanes) (x : Nat) : Lane :=
  columnParity A ((x + 4) % 5) ^^^ rotl64 (columnParity A ((x + 1) % 5)) 1

/-- θ (R122). -/
def theta (A : Lanes) : Lanes := mkLanes fun i => lane A i ^^^ thetaEffect A (i % 5)

/-- The source index of the destination lane j of ρπ. Lane (x, y) goes to j = y + 5((2x + 3y) mod 5), so y = j mod 5
and x = 3(j / 5) + j mod 5 modulo 5 (R123 and its table). DEDUCED, log entry 16. -/
def rhoPiSource (j : Nat) : Nat := (3 * (j / 5) + j % 5) % 5 + 5 * (j % 5)

/-- ρ and π fused, every lane from the snapshot A (R123). -/
def rhoPi (A : Lanes) : Lanes :=
  mkLanes fun j => rotl64 (lane A (rhoPiSource j)) (rotationOffset (rhoPiSource j))

/-- χ, every lane from the snapshot B (R124). -/
def chi (B : Lanes) : Lanes :=
  mkLanes fun i =>
    lane B i ^^^ (~~~(lane B ((i % 5 + 1) % 5 + 5 * (i / 5))) &&& lane B ((i % 5 + 2) % 5 + 5 * (i / 5)))

/-- ι: the round's constant into lane 0 only (R125). -/
def iota (A : Lanes) (r : Nat) : Lanes :=
  mkLanes fun i => if i = 0 then lane A 0 ^^^ roundConstant r else lane A i

/-- Round (R126). -/
def keccakRound (A : Lanes) (r : Nat) : Lanes := iota (chi (rhoPi (theta A))) r

/-- The first n rounds, with indices 0 to n - 1 in increasing order (R127). -/
def rounds : Nat → Lanes → Lanes
  | 0, A => A
  | n + 1, A => keccakRound (rounds n A) n

/-- Permute: exactly 24 rounds (R127). -/
@[irreducible] def permute (A : Lanes) : Lanes := rounds 24 A

/-- A permutation command: S replaced, nothing else but the completion (section 3). -/
def withLanes (A : Lanes) (s : State) : Host.Outcome State Fault Refusal := .next (complete { s with lanes := A })

/-- PERMUTE (R129). -/
def execPermute (s : State) : Host.Outcome State Fault Refusal := withLanes (permute s.lanes) s

/-- ROUND r (R130); a round index above 23 is BAD_ROUND (30_encoding.md R95). -/
def execRound (r : Byte) (s : State) : Host.Outcome State Fault Refusal :=
  if 23 < immValue r then .next (raiseError .badRound s) else withLanes (keccakRound s.lanes (immValue r)) s

/-- THETA (R131). -/
def execTheta (s : State) : Host.Outcome State Fault Refusal := withLanes (theta s.lanes) s

/-- RHOPI (R132). -/
def execRhopi (s : State) : Host.Outcome State Fault Refusal := withLanes (rhoPi s.lanes) s

/-- CHI (R133). -/
def execChi (s : State) : Host.Outcome State Fault Refusal := withLanes (chi s.lanes) s

/-- IOTA r (R134); a round index above 23 is BAD_ROUND (30_encoding.md R95). -/
def execIota (r : Byte) (s : State) : Host.Outcome State Fault Refusal :=
  if 23 < immValue r then .next (raiseError .badRound s) else withLanes (iota s.lanes (immValue r)) s

end Sys2Proof.Machine
end

