-- ==== Sys2Proof/Machine/Sponge.lean ====
section
/-! DEFINITION. The Keccak-256 sponge and its commands (42_sponge.md). -/

namespace Sys2Proof.Machine

/-- RATE, in bytes (R160). -/
abbrev rateBytes : Nat := 136

/-- LanesLE(b)[i] = le64(b[8i..8i+8)) (R161). -/
def lanesLE (b : Bytes) (i : Nat) : Lane := le64 ((b.drop (8 * i)).take 8)

/-- AbsorbBlock (R162): the block XORed into S[0..16], S[17..24] untouched, then Permute. -/
def absorbBlock (A : Lanes) (b : Bytes) : Lanes :=
  permute (mkLanes fun i => if i < 17 then lane A i ^^^ lanesLE b i else lane A i)

/-- A byte sequence with one byte XORed. -/
def xorByteAt (bs : Bytes) (k : Nat) (v : Byte) : Bytes := bs.modify k (· ^^^ v)

/-- Pad (R163), for a remainder of 0 to 135 bytes: both XORs are always applied. -/
def pad (q : Bytes) : Bytes :=
  xorByteAt (xorByteAt (q ++ zeros (rateBytes - q.length)) q.length 0x01) 135 0x80

/-- SqueezeBytes (R164): the 136 bytes of lanes 0 to 16, little-endian. -/
@[irreducible] def squeezeBytes (A : Lanes) : Block := Vector.ofFn fun k => laneByte (lane A (k.val / 8)) (k.val % 8)

/-- The loop of SpongeState (R165): n full blocks, then the padded remainder. -/
@[irreducible] def absorbMessage : Nat → Lanes → Bytes → Lanes
  | 0, A, m => absorbBlock A (pad m)
  | n + 1, A, m => absorbMessage n (absorbBlock A (m.take rateBytes)) (m.drop rateBytes)

/-- SpongeState (R165), from the zero state. -/
def spongeState (m : Bytes) : Lanes := absorbMessage (m.length / rateBytes) zeroLanes m

/-- Keccak256 (R165): the first 32 bytes of the squeeze view. -/
def keccak256 (m : Bytes) : Bytes := (squeezeBytes (spongeState m)).toList.take 32

/-- BLKCNT after hashing n bytes: floor(n / 136) + 1 (10_state.md R32). -/
def blockCount (n : Nat) : Word := BitVec.ofNat 32 (n / rateBytes + 1)

/-- A finished hash of m, what HASH and PROOFID share (R172; 43_packer.md R207): S, OUT, BLKCNT, PHASE. -/
def finishHash (m : Bytes) (s : State) : State :=
  { s with
    lanes := spongeState m
    outBuf := squeezeBytes (spongeState m)
    blkCnt := blockCount m.length
    phase := .squeezed }

/-- A block absorbed into S, what ABSORB and FINAL share (R169, R170): S and BLKCNT. -/
def absorbInto (b : Bytes) (s : State) : State :=
  { s with lanes := absorbBlock s.lanes b, blkCnt := s.blkCnt + 1 }

/-- OUT from S, what FINAL and SQUEEZE share (R170, R171). -/
def squeezeOut (s : State) : State := { s with outBuf := squeezeBytes s.lanes }

/-- INIT (R168). -/
def execInit (s : State) : Host.Outcome State Fault Refusal := .next (complete (startPhase .absorbing s))

/-- ABSORB (R169). -/
def execAbsorb (s : State) : Host.Outcome State Fault Refusal :=
  if s.phase ≠ .absorbing then .next (raiseError .phase s)
  else .next (complete (absorbInto s.inBuf.toList s))

/-- FINAL L (R170); a length above 135 is BAD_LEN (30_encoding.md R95), checked before PHASE (60_exceptions.md R234). -/
def execFinal (len : Byte) (s : State) : Host.Outcome State Fault Refusal :=
  if 135 < immValue len then .next (raiseError .badLen s)
  else if s.phase ≠ .absorbing then .next (raiseError .phase s)
  else
    .next (complete { squeezeOut (absorbInto (pad (s.inBuf.toList.take (immValue len))) s) with phase := .squeezed })

/-- SQUEEZE (R171). -/
def execSqueeze (s : State) : Host.Outcome State Fault Refusal :=
  if s.phase ≠ .squeezed then .next (raiseError .phase s)
  else .next (complete (squeezeOut { s with lanes := permute s.lanes }))

/-- HASH (R172). -/
def execHash (s : State) : Host.Outcome State Fault Refusal :=
  if srcInRange s = false then .next (raiseError .range s)
  else .next (complete (finishHash (srcBytes s) s))

end Sys2Proof.Machine
end

