-- ==== Sys2Proof/Machine/Packer.lean ====
section
/-! DEFINITION. The proof-blob packer and its commands (43_packer.md). -/

namespace Sys2Proof.Machine

/-- PackProofBlob (R200); none is FormatError (R201). The public inputs come before the proof (R203). -/
def packProofBlob (pi pf : Bytes) : Option Bytes :=
  if pi.length % 32 ≠ 0 ∨ pf.length % 32 ≠ 0 then none
  else if 2 ^ 32 ≤ pf.length / 32 + pi.length / 32 then none
  else some (be32bytes (BitVec.ofNat 32 (pf.length / 32 + pi.length / 32)) ++ pi ++ pf)

/-- ComputeProofId (R202); none is FormatError. -/
def computeProofId (pi pf : Bytes) : Option Bytes := (packProofBlob pi pf).map keccak256

/-- FIELDS and BLOB_LEN of a successful PACK or PROOFID (10_state.md R34). -/
def recordBlob (s : State) : State :=
  { s with
    fields := BitVec.ofNat 32 (s.piLen.toNat / 32 + s.pfLen.toNat / 32)
    blobLen := BitVec.ofNat 32 (blobLength s) }

/-- PACK (R206): FORMAT, RANGE, OVERLAP, in this order, then the blob to DMEM. -/
def execPack (s : State) : Host.Outcome State Fault Refusal :=
  if formatOk s = false then .next (raiseError .format s)
  else if sourcesInRange s = false ∨ destInRange s = false then .next (raiseError .range s)
  else if destOverlaps s = true then .next (raiseError .overlap s)
  else
    match packProofBlob (piBytes s) (pfBytes s) with
    | none => .next (raiseError .format s)
    | some blob => .next (complete (recordBlob (memWrite s.dstAddr.toNat blob s)))

/-- PROOFID (R207): FORMAT, RANGE, in this order, then the hash of the blob, which is written nowhere. -/
def execProofid (s : State) : Host.Outcome State Fault Refusal :=
  if formatOk s = false then .next (raiseError .format s)
  else if sourcesInRange s = false then .next (raiseError .range s)
  else
    match packProofBlob (piBytes s) (pfBytes s) with
    | none => .next (raiseError .format s)
    | some blob => .next (complete (recordBlob (finishHash blob s)))

end Sys2Proof.Machine
end

