-- ==== Sys2Proof/Machine/Dispatch.lean ====
section
/-! DEFINITION. One arm per command (40_control.md R111): each calls its command's meaning. -/

namespace Sys2Proof.Machine

def exec (i : Instr) (s : State) : Host.Outcome State Fault Refusal :=
  match i with
  | .nop => Sys2Proof.Machine.execNop s
  | .clear => Sys2Proof.Machine.execClear s
  | .permute => Sys2Proof.Machine.execPermute s
  | .round r => Sys2Proof.Machine.execRound r s
  | .theta => Sys2Proof.Machine.execTheta s
  | .rhopi => Sys2Proof.Machine.execRhopi s
  | .chi => Sys2Proof.Machine.execChi s
  | .iota r => Sys2Proof.Machine.execIota r s
  | .init => Sys2Proof.Machine.execInit s
  | .absorb => Sys2Proof.Machine.execAbsorb s
  | .final len => Sys2Proof.Machine.execFinal len s
  | .squeeze => Sys2Proof.Machine.execSqueeze s
  | .hash => Sys2Proof.Machine.execHash s
  | .pack => Sys2Proof.Machine.execPack s
  | .proofid => Sys2Proof.Machine.execProofid s

end Sys2Proof.Machine
end

