-- ==== Sys2Proof/WellFormed.lean ====
section
/-! DEFINITION. The immediates a command may carry (30_encoding.md R92). -/

namespace Sys2Proof

/-- L is 0 to 135 for FINAL, r is 0 to 23 for ROUND and IOTA; no other command has an operand (R92, R95). -/
def Instr.wf : Instr → Bool
  | .nop | .clear | .permute | .theta | .rhopi | .chi | .init | .absorb | .squeeze | .hash | .pack | .proofid => true
  | .round r => r.toNat ≤ 23
  | .iota r => r.toNat ≤ 23
  | .final len => len.toNat ≤ 135

end Sys2Proof
end

