-- ==== Sys2Proof/Decode.lean ====
section
/-! DEFINITION. The command word, its decoder and its encoder (30_encoding.md R90 to R97). -/

namespace Sys2Proof

/-- OPC, bits [7:0] of a command word (R90). -/
def opcField (w : Word) : Byte := w.extractLsb' 0 8

/-- IMM, bits [15:8] (R90). -/
def immField (w : Word) : Byte := w.extractLsb' 8 8

/-- RSV, bits [31:16] (R90). -/
def rsvField (w : Word) : BitVec 16 := w.extractLsb' 16 16

/-- The opcode map (R94): the fifteen assigned opcodes. Every other byte is reserved. -/
def opcodeMap : List (Byte × Opcode) :=
  [ (0x00, .nop), (0x01, .clear),
    (0x10, .permute), (0x11, .round), (0x12, .theta), (0x13, .rhopi), (0x14, .chi), (0x15, .iota),
    (0x20, .init), (0x21, .absorb), (0x22, .final), (0x23, .squeeze), (0x24, .hash),
    (0x30, .pack), (0x31, .proofid) ]

/-- The operation an opcode byte selects, if it is assigned (R94). -/
def opcodeOf (b : Byte) : Option Opcode := opcodeMap.lookup b

/-- FINAL, ROUND and IOTA take the immediate; every other command requires IMM = 0 (R92). -/
def takesImm : Opcode → Bool
  | .round | .iota | .final => true
  | .nop | .clear | .permute | .theta | .rhopi | .chi | .init | .absorb | .squeeze | .hash | .pack | .proofid => false

/-- The command of an opcode with its immediate. -/
def buildInstr (op : Opcode) (m : Byte) : Instr :=
  match op with
  | .nop => .nop
  | .clear => .clear
  | .permute => .permute
  | .round => .round m
  | .theta => .theta
  | .rhopi => .rhopi
  | .chi => .chi
  | .iota => .iota m
  | .init => .init
  | .absorb => .absorb
  | .final => .final m
  | .squeeze => .squeeze
  | .hash => .hash
  | .pack => .pack
  | .proofid => .proofid

/-- Decode (R95): the checks in their order; the first that fails names the error. Total on every 32-bit word. -/
def decode (w : Word) : Except ErrCode Instr :=
  match opcodeOf (opcField w) with
  | none => .error .illegalOpcode
  | some op =>
    if rsvField w ≠ 0 then .error .reservedBits
    else if takesImm op = false ∧ immField w ≠ 0 then .error .reservedBits
    else if op = .final ∧ 135 < (immField w).toNat then .error .badLen
    else if (op = .round ∨ op = .iota) ∧ 23 < (immField w).toNat then .error .badRound
    else .ok (buildInstr op (immField w))

/-- OPC of each command (R94). -/
def Instr.opc : Instr → Nat
  | .nop => 0x00
  | .clear => 0x01
  | .permute => 0x10
  | .round _ => 0x11
  | .theta => 0x12
  | .rhopi => 0x13
  | .chi => 0x14
  | .iota _ => 0x15
  | .init => 0x20
  | .absorb => 0x21
  | .final _ => 0x22
  | .squeeze => 0x23
  | .hash => 0x24
  | .pack => 0x30
  | .proofid => 0x31

/-- IMM of each command: its operand, 0 where it takes none (R92). -/
def Instr.immediate : Instr → Byte
  | .round r => r
  | .iota r => r
  | .final len => len
  | .nop | .clear | .permute | .theta | .rhopi | .chi | .init | .absorb | .squeeze | .hash | .pack | .proofid => 0

/-- Encode(op, m) = OPC(op) + 256·m, with RSV = 0 (R93). -/
def encode (i : Instr) : Word := BitVec.ofNat 32 (i.opc + 256 * i.immediate.toNat)

/-- The command in the low `nbits` bits of `w`, numbered as spec/opcode_table.json numbers them; every bit above
them is 0. A command is one 32-bit word (R97). -/
def decodeTableWord (nbits w : Nat) : Option Instr :=
  match decode (BitVec.ofNat 32 (w % 2 ^ nbits)) with
  | .ok i => some i
  | .error _ => none

end Sys2Proof
end

