-- ==== Sys2Proof/Machine/Flags.lean ====
section
/-! DEFINITION. STATUS and the identification registers (20_memory.md R53, 10_state.md R35). The engine has no arithmetic
condition flags (10_state.md R36; 00_scope.md R12): STATUS is the only flag register. -/

namespace Sys2Proof.Machine

/-- The 2-bit code of PHASE (10_state.md R24). -/
def phaseCode : Phase → BitVec 2
  | .idle => 0
  | .absorbing => 1
  | .squeezed => 2

/-- The 8-bit ERRCODE (60_exceptions.md R231). -/
def errCodeByte : ErrCode → Byte
  | .noError => 0x00
  | .illegalOpcode => 0x01
  | .reservedBits => 0x02
  | .badLen => 0x03
  | .badRound => 0x04
  | .phase => 0x05
  | .format => 0x06
  | .range => 0x07
  | .overlap => 0x08

/-- One bit of STATUS from a flag. -/
def flagBit (b : Bool) : BitVec 1 := if b then 1 else 0

/-- STATUS with a given PHASE field (R53): [0] BUSY, [1] ERR, [3:2] PHASE, [4] WDROP, [7:5] 0, [15:8] ERRCODE,
[31:16] 0. -/
def statusWith (phase : BitVec 2) (s : State) : Word :=
  (0 : BitVec 16) ++ errCodeByte s.errCode ++ (0 : BitVec 3) ++ flagBit s.wdrop ++ phase ++ flagBit s.err ++
    flagBit s.busy

/-- STATUS (R53). -/
def statusWord (s : State) : Word := statusWith (phaseCode s.phase) s

/-- ID: "KECC" in memory order (R35). -/
def idWord : Word := 0x4343454B

/-- VERSION 1.0 (R35). -/
def versionWord : Word := 0x00010000

/-- CONFIG: [7:0] log2(DMEM_BYTES), [15:8] 17, [23:16] 24, [31:24] 0 (R35). -/
def configWord (s : State) : Word := BitVec.ofNat 32 (s.dmemSize.log2 + 17 * 2 ^ 8 + 24 * 2 ^ 16)

/-- A write to STATUS: bit 4 = 1 clears WDROP, every other bit is ignored (R53, 10_state.md R30). -/
def writeStatus (w : Word) (s : State) : State :=
  if w.getLsbD 4 then { s with wdrop := false } else s

end Sys2Proof.Machine
end

