-- ==== Sys2Proof/Machine/Bus.lean ====
section
/-! DEFINITION. The host's bus accesses to the aperture (20_memory.md): address map, register map, windows, bus errors,
accesses while BUSY = 1. Offsets are from BASE (00_scope.md R7). -/

namespace Sys2Proof.Machine

/-- The regions of the aperture (R51). -/
inductive Region where
  | control | stateWin | inWin | outWin | reserved | dmemWin | unmapped | outside
  deriving DecidableEq, Repr

/-- n of an access width (R50). -/
abbrev widthBytes : Width → Nat
  | .w1 => 1
  | .w2 => 2
  | .w4 => 4
  | .w8 => 8

/-- The offset of DMEM[0] (R60). -/
abbrev dmemBase : Nat := 0x1000000

/-- The address map (R51). -/
def region (s : State) (off : Nat) : Region :=
  if off < 0x100 then .control
  else if off < 0x1C8 then .stateWin
  else if off < 0x200 then .reserved
  else if off < 0x288 then .inWin
  else if off < 0x300 then .reserved
  else if off < 0x388 then .outWin
  else if off < 0x1000 then .reserved
  else if off < dmemBase then .unmapped
  else if off < dmemBase + dmemBytes s then .dmemWin
  else if off < 0x2000000 then .unmapped
  else .outside

/-- Why an access is no legal access, if it is none: outside the aperture (R61), misaligned (R63), of a width other than
4 in the control region (R52), or to an unmapped offset (R61). -/
def accessFault (s : State) (off : Nat) (n : Width) : Option Fault :=
  match region s off with
  | .outside => some (.outsideAperture off)
  | .unmapped => some (.busError off (widthBytes n))
  | .control => if n = .w4 ∧ off % 4 = 0 then none else some (.busError off (widthBytes n))
  | .stateWin | .inWin | .outWin | .reserved | .dmemWin =>
    if off % widthBytes n = 0 then none else some (.busError off (widthBytes n))

/-- off(name): the offset of a named control register (R53). -/
def regOffset : RegName → Nat
  | .id => 0x000
  | .version => 0x004
  | .config => 0x008
  | .cmd => 0x010
  | .status => 0x014
  | .errCmd => 0x018
  | .blkCnt => 0x01C
  | .srcAddr => 0x020
  | .srcLen => 0x024
  | .piAddr => 0x028
  | .piLen => 0x02C
  | .pfAddr => 0x030
  | .pfLen => 0x034
  | .dstAddr => 0x038
  | .fields => 0x03C
  | .blobLen => 0x040

/-- The value of a named control register (R53). -/
def registerValue (s : State) : RegName → Word
  | .id => idWord
  | .version => versionWord
  | .config => configWord s
  | .cmd => s.cmd
  | .status => statusWord s
  | .errCmd => s.errCmd
  | .blkCnt => s.blkCnt
  | .srcAddr => s.srcAddr
  | .srcLen => s.srcLen
  | .piAddr => s.piAddr
  | .piLen => s.piLen
  | .pfAddr => s.pfAddr
  | .pfLen => s.pfLen
  | .dstAddr => s.dstAddr
  | .fields => s.fields
  | .blobLen => s.blobLen

/-- The register map's rows (R53). -/
def registers : List RegName :=
  [ .id, .version, .config, .cmd, .status, .errCmd, .blkCnt,
    .srcAddr, .srcLen, .piAddr, .piLen, .pfAddr, .pfLen, .dstAddr, .fields, .blobLen ]

/-- The register at a control offset; none at a reserved one (R53, R54). -/
def registerAt (off : Nat) : Option RegName := registers.find? fun r => decide (regOffset r = off)

/-- The value of the control register at an offset (R53); reserved offsets read 0 (R54). -/
def readRegister (s : State) (off : Nat) : Word :=
  match registerAt off with
  | some r => registerValue s r
  | none => 0

/-- A legal write of a control register while BUSY = 0 (R53): CMD submits a command (40_control.md R110), STATUS clears
WDROP, the operand registers take the value, the read-only registers and the reserved offsets ignore it (R53, R54). -/
def writeRegister (off : Nat) (w : Word) (s : State) : State :=
  match registerAt off with
  | some .cmd => drawLatency (accept w s)
  | some .status => writeStatus w s
  | some .srcAddr => { s with srcAddr := w }
  | some .srcLen => { s with srcLen := w }
  | some .piAddr => { s with piAddr := w }
  | some .piLen => { s with piLen := w }
  | some .pfAddr => { s with pfAddr := w }
  | some .pfLen => { s with pfLen := w }
  | some .dstAddr => { s with dstAddr := w }
  | some .id | some .version | some .config | some .errCmd | some .blkCnt | some .fields | some .blobLen => s
  | none => s

/-- The capacity mask (R56): the window's byte is one of S[17..24] and PHASE ≠ IDLE. -/
def capacityMasked (s : State) (b : Nat) : Bool := decide (136 ≤ b) && decide (s.phase ≠ .idle)

/-- The byte at a mapped offset, as a read while BUSY = 0 sees it (R55 to R60, R64). -/
def byteAt (s : State) (off : Nat) : Byte :=
  match region s off with
  | .control => wordByte (readRegister s (off - off % 4)) (off % 4)
  | .stateWin =>
    if capacityMasked s (off - 0x100) then 0 else laneByte (lane s.lanes ((off - 0x100) / 8)) ((off - 0x100) % 8)
  | .inWin => blockByte s.inBuf (off - 0x200)
  | .outWin => blockByte s.outBuf (off - 0x300)
  | .reserved => 0
  | .dmemWin => dmemRead s (off - dmemBase)
  | .unmapped => 0
  | .outside => 0

/-- The value of a legal read while BUSY = 0: Σ byte(off + k)·2^(8k) (R64). -/
def readValue (s : State) (off : Nat) (n : Width) : Lane :=
  leValue ((List.range (widthBytes n)).map fun k => byteAt s (off + k))

/-- One byte of a legal write to a window while BUSY = 0 (R55 to R60). OUT and the reserved offsets ignore it (R58,
R59), and so do the masked capacity bytes (R56). -/
def writeByteAt (off : Nat) (b : Byte) (s : State) : State :=
  match region s off with
  | .stateWin =>
    if capacityMasked s (off - 0x100) then s
    else
      { s with
        lanes := mkLanes fun i =>
          if i = (off - 0x100) / 8 then setLaneByte (lane s.lanes i) ((off - 0x100) % 8) b else lane s.lanes i }
  | .inWin => { s with inBuf := s.inBuf.setIfInBounds (off - 0x200) b }
  | .dmemWin => dmemWrite (off - dmemBase) b s
  | .control => s
  | .outWin => s
  | .reserved => s
  | .unmapped => s
  | .outside => s

/-- The bytes of a write, each at its offset (R64). -/
def writeBytesAt (off : Nat) : Bytes → State → State
  | [], s => s
  | b :: bs, s => writeBytesAt (off + 1) bs (writeByteAt off b s)

/-- HostWrite(off, n, v) (R50): a bus error changes nothing (R62); while BUSY = 1 the write is dropped and sets WDROP
(R70, 60_exceptions.md R237). -/
def hostWrite (off : Nat) (n : Width) (v : Lane) (s : State) : Except Fault State :=
  match accessFault s off n with
  | some f => .error f
  | none =>
    if s.busy then .ok { s with wdrop := true }
    else
      match region s off with
      | .control => .ok (writeRegister off (v.setWidth 32) s)
      | .stateWin | .inWin | .outWin | .reserved | .dmemWin | .unmapped | .outside =>
        .ok (writeBytesAt off (leBytes (widthBytes n) v) s)

/-- The reads whose value is unspecified while BUSY = 1 (R70), STATUS apart. -/
def busyUnspecified (s : State) (off : Nat) : Bool :=
  match region s off with
  | .control => decide (off = 0x018 ∨ off = 0x01C ∨ off = 0x03C ∨ off = 0x040)
  | .stateWin => true
  | .outWin => true
  | .dmemWin => true
  | .inWin => false
  | .reserved => false
  | .unmapped => false
  | .outside => false

/-- One more free value drawn. -/
def countDraw (s : State) : State := { s with env := { s.env with draws := s.env.draws + 1 } }

/-- HostRead(off, n) (R50): no read changes the engine (R69). While BUSY = 1 the unspecified reads answer a fresh free
value of the access's width, and STATUS a free PHASE field (R70; 93 U1): `Config.busyRead` at this instance's BASE and at
the count of the draws, so that equal states read alike, which is the model's choice (log entries 4, 21). -/
def hostRead (off : Nat) (n : Width) (s : State) : Except Fault (Lane × State) :=
  match accessFault s off n with
  | some f => .error f
  | none =>
    if s.busy then
      if off = 0x014 then
        .ok ((statusWith ((Config.busyRead s.base s.env.draws).setWidth 2) s).setWidth 64, countDraw s)
      else if busyUnspecified s off then
        .ok (leValue (leBytes (widthBytes n) (Config.busyRead s.base s.env.draws)), countDraw s)
      else .ok (readValue s off n, s)
    else .ok (readValue s off n, s)

end Sys2Proof.Machine
end

