-- ==== Sys2Proof/Machine/HostProgram.lean ====
section
/-! DEFINITION. The host agent: one statement of its program a step (30_encoding.md R98), and the pseudo-instructions
(R99). -/

namespace Sys2Proof.Machine

/-- The value of a host-program variable; one never assigned is a free value. Log entry 10. -/
def hostVar (s : State) (t : Nat) : Lane := (cellLookup t s.env.vars).getD (Config.hostVar s.base t)

/-- t := v in the host's program (R98). -/
def setHostVar (t : Nat) (v : Lane) (s : State) : State :=
  { s with env := { s.env with vars := cellInsert t v s.env.vars } }

/-- The value an EXPECT compares (R98, R99). -/
def hostExprValue (s : State) : HostExpr → Lane
  | .const c => c
  | .var t => hostVar s t
  | .masked t mask => hostVar s t &&& mask

/-- The host's program moves past one statement; a command in flight has one host statement less to wait (00_scope.md
R8). -/
def passStatement (s : State) : State :=
  { s with env := { s.env with hpc := s.env.hpc + 1, wait := s.env.wait - 1 } }

/-- The host's program goes on at a label (R98). -/
def hostGoto (label : Nat) (s : State) : State := { s with env := { s.env with hpc := label } }

/-- One statement of the host's program (R98). -/
def hostExec (st : HostStmt) (s : State) : Host.Outcome State Fault Refusal :=
  match st with
  | .write n off v =>
    match hostWrite off n v (passStatement s) with
    | .error f => .fault f
    | .ok t => .next t
  | .read n off t =>
    match hostRead off n (passStatement s) with
    | .error f => .fault f
    | .ok (v, s') => .next (setHostVar t v s')
  | .bnz t mask label =>
    if hostVar s t &&& mask ≠ 0 then .next (hostGoto label (passStatement s)) else .next (passStatement s)
  | .bz t mask label =>
    if hostVar s t &&& mask = 0 then .next (hostGoto label (passStatement s)) else .next (passStatement s)
  | .expect e v =>
    if hostExprValue s e = v then .next (passStatement s) else .fault (.expectFailed s.env.hpc)

/-- The host's next statement, if its program has one. -/
def hostNext (s : State) : Option HostStmt := s.env.prog[s.env.hpc]?

/-- The host's step: its next statement, or nothing when its program is over. -/
def hostStep (s : State) : Host.Outcome State Fault Refusal :=
  match hostNext s with
  | none => .next s
  | some st => hostExec st s

/-- A command mnemonic as a statement: W32 0x010, Encode(op, m) (R98). -/
def stmtCommand (i : Instr) : HostStmt := .write .w4 0x010 ((encode i).setWidth 64)

/-- POLL at statement index p, with the variable t (R99). -/
def pseudoPoll (p t : Nat) : List HostStmt := [.read .w4 0x014 t, .bnz t 0x1 p]

/-- ISSUE op at statement index p (R99). -/
def pseudoIssue (p t : Nat) (i : Instr) : List HostStmt := stmtCommand i :: pseudoPoll (p + 1) t

/-- CHECK: BUSY = 0, ERR = 0, WDROP = 0 (R99). -/
def pseudoCheck (t : Nat) : List HostStmt := [.read .w4 0x014 t, .expect (.masked t 0x13) 0]

/-- WBYTES off, b0 .. bk-1 (R99). -/
def pseudoWbytes : Nat → Bytes → List HostStmt
  | _, [] => []
  | off, b :: bs => .write .w1 off (b.setWidth 64) :: pseudoWbytes (off + 1) bs

/-- RBYTES off, k -> t, with the variables t, t + 1, … for t[0], t[1], … (R99). -/
def pseudoRbytes (off k t : Nat) : List HostStmt := (List.range k).map fun j => .read .w1 (off + j) (t + j)

/-- WZERO off, k (R99). -/
def pseudoWzero (off k : Nat) : List HostStmt := (List.range k).map fun j => .write .w1 (off + j) 0

/-- SETREG name, v: W32 off(name), v (R99). -/
def pseudoSetreg (name : RegName) (v : Word) : List HostStmt := [.write .w4 (regOffset name) (v.setWidth 64)]

end Sys2Proof.Machine
end

