-- ==== Sys2Proof/Machine/Engine.lean ====
section
/-! DEFINITION. The engine's step (40_control.md R111) and whose turn it is (20_memory.md R50, 00_scope.md R8). -/

namespace Sys2Proof.Machine

/-- Who moves in a step. -/
inductive Turn where
  | reset | engine | host | idle
  deriving DecidableEq, Repr

/-- The engine's step: decode the CMD latch, then run the command, or end it with the decoder's error (R111, R95). -/
def engineStep (s : State) : Host.Outcome State Fault Refusal :=
  match decode s.cmd with
  | .ok i => exec i s
  | .error e => .next (raiseError e s)

/-- A pending reset first (70_reset_and_hazards.md R261); then the engine, only while BUSY = 1 (R50), once its wait is
over or the host has no statement left (fairness, R112, R271); then the host. With nothing to do the machine is idle
(R262). Log entries 2, 8, 11. -/
def turn (s : State) : Turn :=
  if s.env.resetReq then .reset
  else if s.busy && (decide (s.env.wait = 0) || (hostNext s).isNone) then .engine
  else if (hostNext s).isSome then .host
  else .idle

end Sys2Proof.Machine
end

