-- ==== Sys2Proof/Machine/Step.lean ====
section
/-! DEFINITION. One step of the machine, and where it takes its next command from. -/

namespace Sys2Proof.Machine

/-- One step: the agent whose turn it is moves; an idle machine keeps its state (60_exceptions.md R245). -/
def step (s : State) : Host.Outcome State Fault Refusal :=
  match turn s with
  | .reset => .next (platformReset s)
  | .engine => engineStep s
  | .host => hostStep s
  | .idle => .next s

/-- The command word accepted, with the engine's step due next (log entry 9): it stands for the host's write to CMD. -/
def State.withFetchWord (s : State) (nbits w : Nat) : State := placeCommand (BitVec.ofNat 32 (w % 2 ^ nbits)) s

end Sys2Proof.Machine
end

