-- ==== Sys2Proof/Machine/Platform.lean ====
section
/-! DEFINITION. A platform with several engine instances (00_scope.md R7, R9; 60_exceptions.md R243). Log entry 6. -/

namespace Sys2Proof.Machine

/-- The instance at a BASE as its own reset leaves it (R243), in the reference configuration. -/
def State.resetAt (base : Nat) : State := { State.reset with base := base }

/-- The aperture of an instance, 32 MiB from its BASE (20_memory.md R51). -/
def inAperture (s : State) (addr : Nat) : Bool := decide (s.base ≤ addr) && decide (addr < s.base + 0x2000000)

/-- The apertures of two instances have no address in common. -/
def aperturesApart (s t : State) : Bool :=
  decide (s.base + 0x2000000 ≤ t.base) || decide (t.base + 0x2000000 ≤ s.base)

/-- A platform: each instance at its own BASE (R9, R243), no two in one another's aperture. -/
def Platform.wf : List State → Bool
  | [] => true
  | s :: rest => rest.all (aperturesApart s) && Platform.wf rest

/-- The instance a physical address belongs to, and the offset in its aperture (R7). -/
def routeAddress (p : List State) (addr : Nat) : Option (Nat × Nat) :=
  match p.findIdx? (inAperture · addr) with
  | none => none
  | some k => (p[k]?).map fun s => (k, addr - s.base)

/-- A step of the k-th instance: every other instance keeps its state (R243). -/
def platformStep (p : List State) (k : Nat) : Host.Outcome (List State) Fault Refusal :=
  match p[k]? with
  | none => .next p
  | some s =>
    match step s with
    | .next t => .next (p.set k t)
    | .fault f => .fault f
    | .refused r => .refused r

end Sys2Proof.Machine
end

