-- ==== Sys2Proof/Safety.lean ====
section
/-! DEFINITION. The invariant of the machine and what a safe run is. -/

namespace Sys2Proof

open Machine

/-- What holds of the machine from reset on, whatever the host does. -/
structure Inv (s : State) : Prop where
  /-- DMEM keeps its canonical form, every address below DMEM_BYTES. -/
  memory : Memory.wf (dmemBytes s) s.dmem = true
  /-- While a command is in flight ERR and ERRCODE are 0, as acceptance left them (10_state.md R29, 40_control.md R110). -/
  inFlight : s.busy = true → s.err = false
  /-- ERR is set exactly when ERRCODE holds an error (60_exceptions.md R231, R232). -/
  errAgrees : s.err = true ↔ s.errCode ≠ .noError
  /-- A recorded error is that of the last command accepted (60_exceptions.md R232, 40_control.md R110). -/
  errCmd : s.err = true → s.errCmd = s.cmd
  /-- OUT is all zero until a hash is finished (10_state.md R26, 92_eei_decisions.md D30). -/
  outZero : s.phase ≠ .squeezed → s.outBuf = zeroBlock
  /-- No block is counted in IDLE (10_state.md R24, R32). -/
  idleCount : s.phase = .idle → s.blkCnt = 0
  /-- FIELDS and BLOB_LEN belong together (10_state.md R34). -/
  blob : s.fields = 0 ∧ s.blobLen = 0 ∨ s.blobLen.toNat = 4 + 32 * s.fields.toNat
  /-- The host's variables are listed in order, each once. -/
  hostVars : cellsFrom 0 s.env.vars = true

/-- A run of at most n steps that no fault ends. -/
def SafeFor : Nat → State → Prop
  | 0, _ => True
  | n + 1, s => ∃ t, step s = .next t ∧ SafeFor n t

end Sys2Proof
end

