-- ==== Sys2Proof/Certificates/Slice0/Obligations.lean ====
section
/-! DEFINITION. The statements for the provers, and the few notions they are written with. -/

namespace Sys2Proof.Slice0

open Machine

/-- The state an error leaves, written out (60_exceptions.md R232). -/
def Raised (e : ErrCode) (s : State) : State :=
  { s with err := true, errCode := e, errCmd := s.cmd, busy := false }

/-- The engine may take its step: no reset is pending, a command is in flight, and its wait is over or the host has no
statement left (40_control.md R111, log entries 2 and 8). -/
def EngineDue (s : State) : Prop :=
  s.env.resetReq = false ∧ s.busy = true ∧ (s.env.wait = 0 ∨ hostNext s = none)

/-- The word is the command i, and the engine's step with it in the CMD latch executes i (30_encoding.md R95). -/
def Runs (w : Word) (i : Instr) : Prop :=
  decode w = .ok i ∧ ∀ s : State, EngineDue s → s.cmd = w → step s = exec i s

/-- The word is no command, and the engine's step with it in the CMD latch ends with the error (30_encoding.md R95). -/
def Refuses (w : Word) (e : ErrCode) : Prop :=
  decode w = .error e ∧ ∀ s : State, EngineDue s → s.cmd = w → step s = .next (Raised e s)

/-- What becomes of the words of an opcode that takes no immediate (30_encoding.md R92, R95): the opcode alone is the
command, any other bit set is RESERVED_BITS. -/
def NoImmediate (o : Byte) (i : Instr) : Prop :=
  ∀ w : Word, opcField w = o →
    (w.extractLsb' 8 24 = 0 → Runs w i) ∧ (w.extractLsb' 8 24 ≠ 0 → Refuses w .reservedBits)

/-- What becomes of the words of an opcode that takes an immediate of 0 to `lim` (R92, R95). -/
def WithImmediate (o : Byte) (lim : Nat) (e : ErrCode) (f : Byte → Instr) : Prop :=
  ∀ w : Word, opcField w = o →
    (w.extractLsb' 16 16 ≠ 0 → Refuses w .reservedBits) ∧
    (w.extractLsb' 16 16 = 0 → lim < (w.extractLsb' 8 8).toNat → Refuses w e) ∧
    (w.extractLsb' 16 16 = 0 → (w.extractLsb' 8 8).toNat ≤ lim → Runs w (f (w.extractLsb' 8 8)))

/-- The fifteen assigned opcodes (30_encoding.md R94). -/
def assignedOpcodes : List Nat :=
  [0x00, 0x01, 0x10, 0x11, 0x12, 0x13, 0x14, 0x15, 0x20, 0x21, 0x22, 0x23, 0x24, 0x30, 0x31]

/-- The errors the command of an opcode can report (60_exceptions.md R235). -/
def errorsOf (opc : Nat) : List ErrCode :=
  if opc ∉ assignedOpcodes then [.illegalOpcode]
  else if opc = 0x11 ∨ opc = 0x15 then [.reservedBits, .badRound]
  else if opc = 0x21 ∨ opc = 0x23 then [.reservedBits, .phase]
  else if opc = 0x22 then [.reservedBits, .badLen, .phase]
  else if opc = 0x24 then [.reservedBits, .range]
  else if opc = 0x30 then [.reservedBits, .format, .range, .overlap]
  else if opc = 0x31 then [.reservedBits, .format, .range]
  else [.reservedBits]

/-- The parity of column x, as a sum over the five rows (41_permutation.md R122). -/
def parity (A : Lanes) (x : Nat) : Lane := (List.range 5).foldl (fun c y => c ^^^ lane A (x + 5 * y)) 0

/-- Σ f(k)·2^(8k) over k < n, the reading of n bytes (20_memory.md R64). -/
def littleEndian (n : Nat) (f : Nat → Byte) : Lane :=
  BitVec.ofNat 64 ((List.range n).map fun k => (f k).toNat * 2 ^ (8 * k)).sum

/-- Byte c of le64bytes(S[0]) ++ … ++ le64bytes(S[24]) (20_memory.md R55). -/
def stateByte (A : Lanes) (c : Nat) : Byte := (lane A (c / 8)).extractLsb' (8 * (c % 8)) 8

/-- The bytes of an array after a write of n bytes of v at position a (20_memory.md R64). -/
def overwritten (a n : Nat) (v : Lane) (f : Nat → Byte) (c : Nat) : Byte :=
  if a ≤ c ∧ c < a + n then v.extractLsb' (8 * (c - a)) 8 else f c

/-- Commands executed one after another, each completing. -/
def runCommands : List Instr → State → Option State
  | [], s => some s
  | i :: is, s =>
    match exec i s with
    | .next t => runCommands is t
    | .fault _ => none
    | .refused _ => none

/-- For each block: the block written to IN, then ABSORB (42_sponge.md R173). -/
def absorbBlocks : List Block → State → Option State
  | [], s => some s
  | b :: bs, s =>
    match exec .absorb { s with inBuf := b } with
    | .next t => absorbBlocks bs t
    | .fault _ => none
    | .refused _ => none

/-- The LFSR of the round-constant generator, after t steps (41_permutation.md R120). -/
def lfsr : Nat → Nat
  | 0 => 1
  | t + 1 => if 256 ≤ 2 * lfsr t then (2 * lfsr t) ^^^ 0x171 else 2 * lfsr t

/-- The walk of the rotation-offset generator: position (x, y) after t steps (41_permutation.md R121). -/
def rotWalk : Nat → Nat × Nat
  | 0 => (1, 0)
  | t + 1 => ((rotWalk t).2, (2 * (rotWalk t).1 + 3 * (rotWalk t).2) % 5)

/-- The access is to a mapped offset of the aperture (20_memory.md R51). -/
def Mapped (s : State) (off : Nat) : Prop :=
  off < 0x1000 ∨ 0x1000000 ≤ off ∧ off < 0x1000000 + dmemBytes s

/-- The access is legal (20_memory.md R52, R61, R63). -/
def Legal (s : State) (off : Nat) (n : Width) : Prop :=
  Mapped s off ∧ off % widthBytes n = 0 ∧ (off < 0x100 → n = .w4)

/-- The host moves: no reset is pending, it has a statement, and no command in flight is due. -/
def HostDue (s : State) (st : HostStmt) : Prop :=
  s.env.resetReq = false ∧ hostNext s = some st ∧ (s.busy = true → s.env.wait ≠ 0)

end Sys2Proof.Slice0

open Sys2Proof Sys2Proof.Machine Sys2Proof.Slice0

/-! ## Encoding (30_encoding.md) -/

/-- R93 with R95: decoding the encoding of any well-formed command gives it back, operand included. -/
def Obligations.DecodeOfEncode : Prop :=
  ∀ i : Instr, i.wf = true → decode (encode i) = .ok i

/-- R93, R95 the other way: a word that decodes is the encoding of the well-formed command it decodes to. -/
def Obligations.EncodeOfDecode : Prop :=
  ∀ (w : Word) (i : Instr), decode w = .ok i → i.wf = true ∧ encode i = w

/-- R95: the decoder's checks, in order, over the arithmetic fields of the word; the first that fails ends the command
with its error. It is total. -/
def Obligations.DecodeChecksInOrder : Prop :=
  ∀ w : Word,
    (w.toNat % 256 ∉ assignedOpcodes → Refuses w .illegalOpcode) ∧
    (w.toNat % 256 ∈ assignedOpcodes → w.toNat / 65536 ≠ 0 → Refuses w .reservedBits) ∧
    (w.toNat % 256 ∈ assignedOpcodes → w.toNat / 65536 = 0 → w.toNat % 256 ∉ [0x22, 0x11, 0x15] →
      w.toNat / 256 ≠ 0 → Refuses w .reservedBits) ∧
    (w.toNat / 65536 = 0 → w.toNat % 256 = 0x22 → 135 < w.toNat / 256 → Refuses w .badLen) ∧
    (w.toNat / 65536 = 0 → w.toNat % 256 ∈ [0x11, 0x15] → 23 < w.toNat / 256 → Refuses w .badRound) ∧
    (w.toNat % 256 ∈ assignedOpcodes → w.toNat / 65536 = 0 →
      (w.toNat % 256 ∉ [0x22, 0x11, 0x15] → w.toNat / 256 = 0) →
      (w.toNat % 256 = 0x22 → w.toNat / 256 ≤ 135) →
      (w.toNat % 256 ∈ [0x11, 0x15] → w.toNat / 256 ≤ 23) →
      ∃ i, Runs w i ∧ i.opc = w.toNat % 256 ∧ i.immediate.toNat = w.toNat / 256)

/-- R94: words written out from the opcode map, one or more a family. -/
def Obligations.WrittenWordsDecode : Prop :=
  decode 0x00000000 = .ok .nop ∧ decode 0x00000001 = .ok .clear ∧ decode 0x00000010 = .ok .permute ∧
  decode 0x00001711 = .ok (.round 23) ∧ decode 0x00000015 = .ok (.iota 0) ∧ decode 0x00000020 = .ok .init ∧
  decode 0x00008722 = .ok (.final 135) ∧ decode 0x00000024 = .ok .hash ∧ decode 0x00000030 = .ok .pack ∧
  decode 0x00000031 = .ok .proofid ∧ decode 0x00000116 = .error .illegalOpcode ∧
  decode 0x00010022 = .error .reservedBits ∧ decode 0x00008822 = .error .badLen ∧
  decode 0x00001811 = .error .badRound

/-! ## The life of a command (40_control.md, 60_exceptions.md) -/

/-- R110: a legal 4-byte write to CMD while BUSY = 0 latches the word, sets BUSY, clears ERR and ERRCODE and changes
nothing else of the engine and of the host; while BUSY = 1 it only sets WDROP. The schedule (`wait`, `schedule`,
`draws`) is the model's own, log entry 2. -/
def Obligations.AcceptanceOfCommand : Prop :=
  ∀ (s : State) (v : Lane),
    (s.busy = false →
      ∃ t, hostWrite 0x010 .w4 v s = .ok t ∧
        t = { s with cmd := v.setWidth 32, busy := true, err := false, errCode := .noError, env := t.env } ∧
        t.env = { s.env with wait := t.env.wait, schedule := t.env.schedule, draws := t.env.draws }) ∧
    (s.busy = true → hostWrite 0x010 .w4 v s = .ok { s with wdrop := true })

/-- R111: when the engine takes its step, the step is the execution of the command in the CMD latch and nothing
around it; a word that does not decode ends with the decoder's error, recorded as R232 says. While the command's wait
is not over the host's next statement runs instead (the schedule is the model's, log entry 2). -/
def Obligations.StepRunsDecodedCommand : Prop :=
  (∀ (s : State) (i : Instr), EngineDue s → decode s.cmd = .ok i → step s = exec i s) ∧
  (∀ (s : State) (e : ErrCode), EngineDue s → decode s.cmd = .error e → step s = .next (Raised e s)) ∧
  (∀ (s : State) (st : HostStmt), HostDue s st → step s = hostExec st s)

/-- R230, R232, R233: every command ends, BUSY cleared, either without touching ERR, ERRCODE and ERRCMD, or with one
error recorded and nothing else changed. -/
def Obligations.CommandEndsInSuccessOrOneError : Prop :=
  ∀ (i : Instr) (s : State),
    ∃ t, exec i s = .next t ∧ t.busy = false ∧
      (t.err = s.err ∧ t.errCode = s.errCode ∧ t.errCmd = s.errCmd ∨
        ∃ e, e ≠ ErrCode.noError ∧ t = Raised e s)

/-- R235: the errors the engine's step can report, by the opcode of the CMD latch. The premise on ERRCODE is what
acceptance leaves (invariant `Inv.inFlight`, `Inv.errAgrees`). -/
def Obligations.ErrorsByCommand : Prop :=
  ∀ s t : State, EngineDue s → s.errCode = .noError → step s = .next t →
    t.errCode = .noError ∨ t.errCode ∈ errorsOf (s.cmd.toNat % 256)

/-- R25, R28, R30, R33, R71: no command writes IN, the CMD latch, WDROP, the operand registers, and none but PACK
writes DMEM; BASE, the size of DMEM and everything outside the engine stay. -/
def Obligations.CommandsLeaveInputsAlone : Prop :=
  ∀ (i : Instr) (s t : State), exec i s = .next t →
    t.inBuf = s.inBuf ∧ t.cmd = s.cmd ∧ t.wdrop = s.wdrop ∧
    t.srcAddr = s.srcAddr ∧ t.srcLen = s.srcLen ∧ t.piAddr = s.piAddr ∧ t.piLen = s.piLen ∧
    t.pfAddr = s.pfAddr ∧ t.pfLen = s.pfLen ∧ t.dstAddr = s.dstAddr ∧
    t.base = s.base ∧ t.dmemSize = s.dmemSize ∧ t.dmemGen = s.dmemGen ∧ t.env = s.env ∧
    (i ≠ .pack → t.dmem = s.dmem ∧ ∀ a, dmemRead t a = dmemRead s a)

/-- R24, R32: the commands that write PHASE and BLKCNT, and what they write; R34: only PACK and PROOFID write FIELDS
and BLOB_LEN. -/
def Obligations.WritersOfPhaseAndCounts : Prop :=
  ∀ (i : Instr) (s t : State), exec i s = .next t →
    (t.phase = s.phase ∨ i = .clear ∧ t.phase = .idle ∨ i = .init ∧ t.phase = .absorbing ∨
      ((∃ l, i = .final l) ∨ i = .hash ∨ i = .proofid) ∧ t.phase = .squeezed) ∧
    (t.blkCnt = s.blkCnt ∨ (i = .clear ∨ i = .init) ∧ t.blkCnt = 0 ∨
      (i = .absorb ∨ ∃ l, i = .final l) ∧ t.blkCnt = s.blkCnt + 1 ∨
      i = .hash ∧ t.blkCnt = BitVec.ofNat 32 (s.srcLen.toNat / 136 + 1) ∨
      i = .proofid ∧ t.blkCnt = BitVec.ofNat 32 ((4 + s.piLen.toNat + s.pfLen.toNat) / 136 + 1)) ∧
    (t.fields = s.fields ∧ t.blobLen = s.blobLen ∨
      (i = .pack ∨ i = .proofid) ∧
        t.fields = BitVec.ofNat 32 (s.piLen.toNat / 32 + s.pfLen.toNat / 32) ∧
        t.blobLen = BitVec.ofNat 32 (4 + s.piLen.toNat + s.pfLen.toNat))

/-- R28: the CMD latch changes only at reset and by an accepted host write to CMD, which leaves the written word. -/
def Obligations.CmdLatchWrittenByAcceptance : Prop :=
  ∀ s t : State, step s = .next t →
    t.cmd = s.cmd ∨ s.env.resetReq = true ∧ t.cmd = 0 ∨
    ∃ v : Lane, hostNext s = some (.write .w4 0x010 v) ∧ s.busy = false ∧ t.cmd = v.setWidth 32 ∧ t.busy = true

/-- R112, R249, R271: with no reset pending, a command in flight completes after at most `wait` host statements and the
engine's step, unless a host statement faults first. The bound is the schedule's (log entry 2). -/
def Obligations.CommandInFlightCompletes : Prop :=
  ∀ s : State, s.env.resetReq = false → s.busy = true →
    ∃ j, j ≤ s.env.wait + 1 ∧
      ((∃ t : State, core.run j s = .next t ∧ t.busy = false) ∨ ∃ f, core.run j s = .fault f)

/-! ## The commands -/

/-- R113. -/
def Obligations.NopCompletes : Prop :=
  NoImmediate 0x00 .nop ∧ ∀ s : State, exec .nop s = .next { s with busy := false }

/-- R114: S, OUT and BLKCNT zero, PHASE IDLE, everything else kept; afterwards the whole STATE window reads 0. -/
def Obligations.ClearCompletes : Prop :=
  NoImmediate 0x01 .clear ∧
  ∀ s : State, ∃ t, exec .clear s = .next t ∧
    t = { s with lanes := t.lanes, outBuf := t.outBuf, blkCnt := 0, phase := .idle, busy := false } ∧
    (∀ i, i < 25 → lane t.lanes i = 0) ∧ (∀ k, k < 136 → blockByte t.outBuf k = 0) ∧
    ∀ (off : Nat) (n : Width), 0x100 ≤ off → off < 0x1C8 → off % widthBytes n = 0 → hostRead off n t = .ok (0, t)

/-- R129 with R127: the 24 rounds, indices 0 to 23 in increasing order; nothing else changes. -/
def Obligations.PermuteCompletes : Prop :=
  NoImmediate 0x10 .permute ∧
  ∀ s : State, exec .permute s =
    .next { s with lanes := (List.range 24).foldl keccakRound s.lanes, busy := false }

/-- R130 with R126: θ, ρπ, χ, ι in this order; an index above 23 is BAD_ROUND. -/
def Obligations.RoundCompletes : Prop :=
  WithImmediate 0x11 23 .badRound .round ∧
  ∀ (s : State) (r : Byte),
    (r.toNat ≤ 23 → exec (.round r) s =
      .next { s with lanes := iota (chi (rhoPi (theta s.lanes))) r.toNat, busy := false }) ∧
    (23 < r.toNat → exec (.round r) s = .next (Raised .badRound s))

/-- R131 with R122: every lane XORed with the θ effect of its column; with every column parity 0 S stays. -/
def Obligations.ThetaCompletes : Prop :=
  NoImmediate 0x12 .theta ∧
  ∀ s : State, ∃ t, exec .theta s = .next t ∧ t = { s with lanes := t.lanes, busy := false } ∧
    (∀ i, i < 25 → lane t.lanes i =
      lane s.lanes i ^^^ (parity s.lanes ((i + 4) % 5) ^^^ (parity s.lanes ((i + 1) % 5)).rotateLeft 1)) ∧
    ((∀ x, x < 5 → parity s.lanes x = 0) → t.lanes = s.lanes)

/-- R132 with R123: lane (x, y) rotated by its offset and moved to (y, 2x + 3y mod 5), from the snapshot; lane 0 stays,
and no two states give one result. -/
def Obligations.RhopiCompletes : Prop :=
  NoImmediate 0x13 .rhopi ∧
  (∀ s : State, ∃ t, exec .rhopi s = .next t ∧ t = { s with lanes := t.lanes, busy := false } ∧
    (∀ x y, x < 5 → y < 5 →
      lane t.lanes (y + 5 * ((2 * x + 3 * y) % 5)) =
        (lane s.lanes (x + 5 * y)).rotateLeft (rotationOffset (x + 5 * y))) ∧
    lane t.lanes 0 = lane s.lanes 0) ∧
  ∀ A B : Lanes, rhoPi A = rhoPi B → A = B

/-- R133 with R124: χ from the snapshot, row by row; a row of all-ones lanes stays, and a row whose only non-zero lane
is v at x gets v at x and at x + 3 mod 5. -/
def Obligations.ChiCompletes : Prop :=
  NoImmediate 0x14 .chi ∧
  ∀ s : State, ∃ t, exec .chi s = .next t ∧ t = { s with lanes := t.lanes, busy := false } ∧
    (∀ x y, x < 5 → y < 5 →
      lane t.lanes (x + 5 * y) =
        lane s.lanes (x + 5 * y) ^^^
          (~~~(lane s.lanes ((x + 1) % 5 + 5 * y)) &&& lane s.lanes ((x + 2) % 5 + 5 * y))) ∧
    (∀ y, y < 5 → (∀ x, x < 5 → lane s.lanes (x + 5 * y) = BitVec.allOnes 64) →
      ∀ x, x < 5 → lane t.lanes (x + 5 * y) = BitVec.allOnes 64) ∧
    ∀ x y, x < 5 → y < 5 → (∀ z, z < 5 → z ≠ x → lane s.lanes (z + 5 * y) = 0) →
      ∀ z, z < 5 → lane t.lanes (z + 5 * y) =
        if z = x ∨ z = (x + 3) % 5 then lane s.lanes (x + 5 * y) else 0

/-- R134 with R125: the round constant into lane 0 only; twice the same restores S; an index above 23 is BAD_ROUND. -/
def Obligations.IotaCompletes : Prop :=
  WithImmediate 0x15 23 .badRound .iota ∧
  ∀ (s : State) (r : Byte),
    (r.toNat ≤ 23 → ∃ t u, exec (.iota r) s = .next t ∧ t = { s with lanes := t.lanes, busy := false } ∧
      lane t.lanes 0 = lane s.lanes 0 ^^^ roundConstant r.toNat ∧
      (∀ i, 0 < i → i < 25 → lane t.lanes i = lane s.lanes i) ∧
      exec (.iota r) t = .next u ∧ u.lanes = s.lanes) ∧
    (23 < r.toNat → exec (.iota r) s = .next (Raised .badRound s))

/-- R168: S, OUT and BLKCNT zero, PHASE ABSORBING, everything else (IN too) kept. -/
def Obligations.InitCompletes : Prop :=
  NoImmediate 0x20 .init ∧
  ∀ s : State, ∃ t, exec .init s = .next t ∧
    t = { s with lanes := t.lanes, outBuf := t.outBuf, blkCnt := 0, phase := .absorbing, busy := false } ∧
    (∀ i, i < 25 → lane t.lanes i = 0) ∧ ∀ k, k < 136 → blockByte t.outBuf k = 0

/-- R169: in ABSORBING the 136 bytes of IN are absorbed and BLKCNT counts one; in another PHASE the error PHASE. -/
def Obligations.AbsorbCompletes : Prop :=
  NoImmediate 0x21 .absorb ∧
  ∀ s : State,
    (s.phase = .absorbing → exec .absorb s =
      .next { s with lanes := absorbBlock s.lanes s.inBuf.toList, blkCnt := s.blkCnt + 1, busy := false }) ∧
    (s.phase ≠ .absorbing → exec .absorb s = .next (Raised .phase s))

/-- R170: in ABSORBING the padded IN[0..L) is absorbed, OUT is the squeeze view, BLKCNT counts one, PHASE becomes
SQUEEZED, and IN[L..135] makes no difference; a length above 135 is BAD_LEN, then another PHASE is PHASE. -/
def Obligations.FinalCompletes : Prop :=
  WithImmediate 0x22 135 .badLen .final ∧
  ∀ (s : State) (l : Byte),
    (l.toNat ≤ 135 → s.phase = .absorbing →
      ∃ t, exec (.final l) s = .next t ∧
        t = { s with
          lanes := absorbBlock s.lanes (pad (s.inBuf.toList.take l.toNat))
          outBuf := squeezeBytes t.lanes, blkCnt := s.blkCnt + 1, phase := .squeezed, busy := false } ∧
        ∀ b : Block, (∀ k, k < l.toNat → blockByte b k = blockByte s.inBuf k) →
          exec (.final l) { s with inBuf := b } = .next { t with inBuf := b }) ∧
    (l.toNat ≤ 135 → s.phase ≠ .absorbing → exec (.final l) s = .next (Raised .phase s)) ∧
    (135 < l.toNat → exec (.final l) s = .next (Raised .badLen s))

/-- R171: in SQUEEZED S is permuted and OUT is its squeeze view; in another PHASE the error PHASE. -/
def Obligations.SqueezeCompletes : Prop :=
  NoImmediate 0x23 .squeeze ∧
  ∀ s : State,
    (s.phase = .squeezed → exec .squeeze s =
      .next { s with lanes := permute s.lanes, outBuf := squeezeBytes (permute s.lanes), busy := false }) ∧
    (s.phase ≠ .squeezed → exec .squeeze s = .next (Raised .phase s))

/-- R172: the message in DMEM is hashed from the zero state, in every PHASE; a range that ends above DMEM_BYTES, over
the naturals, is RANGE. -/
def Obligations.HashCompletes : Prop :=
  NoImmediate 0x24 .hash ∧
  ∀ s : State,
    (s.srcAddr.toNat + s.srcLen.toNat ≤ dmemBytes s →
      ∃ (m : Bytes) (t : State), exec .hash s = .next t ∧
        m.length = s.srcLen.toNat ∧
        (∀ k, k < s.srcLen.toNat → m[k]? = some (dmemRead s (s.srcAddr.toNat + k))) ∧
        t = { s with
          lanes := spongeState m, outBuf := squeezeBytes (spongeState m)
          blkCnt := BitVec.ofNat 32 (s.srcLen.toNat / 136 + 1), phase := .squeezed, busy := false }) ∧
    (dmemBytes s < s.srcAddr.toNat + s.srcLen.toNat → exec .hash s = .next (Raised .range s))

/-- R206: the checks FORMAT, RANGE, OVERLAP in this order; else the big-endian count, the public inputs and the proof
stand at DST_ADDR, every other byte of DMEM is as before, FIELDS and BLOB_LEN are set and nothing else changes. -/
def Obligations.PackCompletes : Prop :=
  NoImmediate 0x30 .pack ∧
  ∀ s : State,
    let pi := s.piLen.toNat
    let pf := s.pfLen.toNat
    let dst := s.dstAddr.toNat
    let blen := 4 + pi + pf
    let format := pi % 32 = 0 ∧ pf % 32 = 0
    let inside := s.piAddr.toNat + pi ≤ dmemBytes s ∧ s.pfAddr.toNat + pf ≤ dmemBytes s ∧ dst + blen ≤ dmemBytes s
    let meets := fun a n => 0 < n ∧ dst < a + n ∧ a < dst + blen
    let overlaps := meets s.piAddr.toNat pi ∨ meets s.pfAddr.toNat pf
    (¬format → exec .pack s = .next (Raised .format s)) ∧
    (format → ¬inside → exec .pack s = .next (Raised .range s)) ∧
    (format → inside → overlaps → exec .pack s = .next (Raised .overlap s)) ∧
    (format → inside → ¬overlaps →
      ∃ t, exec .pack s = .next t ∧
        t = { s with
          dmem := t.dmem, fields := BitVec.ofNat 32 (pi / 32 + pf / 32), blobLen := BitVec.ofNat 32 blen
          busy := false } ∧
        (∀ k, k < 4 → dmemRead t (dst + k) = BitVec.ofNat 8 ((pi / 32 + pf / 32) / 256 ^ (3 - k))) ∧
        (∀ k, k < pi → dmemRead t (dst + 4 + k) = dmemRead s (s.piAddr.toNat + k)) ∧
        (∀ k, k < pf → dmemRead t (dst + 4 + pi + k) = dmemRead s (s.pfAddr.toNat + k)) ∧
        ∀ a, a < dst ∨ dst + blen ≤ a → dmemRead t a = dmemRead s a)

/-- R207: the checks FORMAT, RANGE in this order; else the blob of the public inputs and the proof is hashed and DMEM
is unchanged. -/
def Obligations.ProofidCompletes : Prop :=
  NoImmediate 0x31 .proofid ∧
  ∀ s : State,
    let pi := s.piLen.toNat
    let pf := s.pfLen.toNat
    let format := pi % 32 = 0 ∧ pf % 32 = 0
    let inside := s.piAddr.toNat + pi ≤ dmemBytes s ∧ s.pfAddr.toNat + pf ≤ dmemBytes s
    (¬format → exec .proofid s = .next (Raised .format s)) ∧
    (format → ¬inside → exec .proofid s = .next (Raised .range s)) ∧
    (format → inside →
      ∃ (p q blob : Bytes) (t : State), exec .proofid s = .next t ∧
        p.length = pi ∧ (∀ k, k < pi → p[k]? = some (dmemRead s (s.piAddr.toNat + k))) ∧
        q.length = pf ∧ (∀ k, k < pf → q[k]? = some (dmemRead s (s.pfAddr.toNat + k))) ∧
        packProofBlob p q = some blob ∧
        t = { s with
          lanes := spongeState blob, outBuf := squeezeBytes (spongeState blob)
          blkCnt := BitVec.ofNat 32 ((4 + pi + pf) / 136 + 1)
          fields := BitVec.ofNat 32 (pi / 32 + pf / 32), blobLen := BitVec.ofNat 32 (4 + pi + pf)
          phase := .squeezed, busy := false })

/-! ## The permutation (41_permutation.md) -/

/-- R120, R121: the two tables are what their generators give (both the spec's general knowledge, log entry 12). -/
def Obligations.TablesMatchTheirGenerators : Prop :=
  (∀ r, r < 24 → ∀ b, b < 64 →
    ((roundConstant r).getLsbD b = true ↔ ∃ j, j ≤ 6 ∧ b = 2 ^ j - 1 ∧ lfsr ((j + 7 * r) % 255) % 2 = 1)) ∧
  rotationOffset 0 = 0 ∧
  ∀ t, t < 24 → rotationOffset ((rotWalk t).1 + 5 * (rotWalk t).2) = ((t + 1) * (t + 2) / 2) % 64

/-- R135: THETA, RHOPI, CHI, IOTA r leave the S that ROUND r leaves, and every other element unchanged. -/
def Obligations.StepCommandsComposeToRound : Prop :=
  ∀ (s : State) (r : Byte), r.toNat ≤ 23 →
    ∃ t, runCommands [.theta, .rhopi, .chi, .iota r] s = some t ∧ exec (.round r) s = .next t ∧
      t = { s with lanes := t.lanes, busy := false }

/-- R130 (corner cases): ROUND 0 to ROUND 23 in this order leave what PERMUTE leaves. -/
def Obligations.RoundsComposeToPermute : Prop :=
  ∀ s : State, ∃ t, runCommands ((List.range 24).map fun r => Instr.round (BitVec.ofNat 8 r)) s = some t ∧
    exec .permute s = .next t

/-! ## The sponge (42_sponge.md) -/

/-- R161: byte k of a 136-byte block is bits 8(k mod 8) to 8(k mod 8) + 7 of lane k / 8, and the lane is the
little-endian sum of its bytes. -/
def Obligations.BlockBytesBecomeLanes : Prop :=
  ∀ b : Bytes, b.length = 136 →
    (∀ k, k < 136 → b[k]? = some ((lanesLE b (k / 8)).extractLsb' (8 * (k % 8)) 8)) ∧
    ∀ i, i < 17 → (lanesLE b i).toNat =
      ((List.range 8).map fun k => (b.getD (8 * i + k) 0).toNat * 2 ^ (8 * k)).sum

/-- R162: the block is XORed into lanes 0 to 16, lanes 17 to 24 stay, then the permutation runs once. -/
def Obligations.AbsorbBlockXorsTheRate : Prop :=
  ∀ (A : Lanes) (b : Bytes), ∃ B : Lanes, absorbBlock A b = permute B ∧
    (∀ i, i < 17 → lane B i = lane A i ^^^ lanesLE b i) ∧ ∀ i, 17 ≤ i → i < 25 → lane B i = lane A i

/-- R163: the padded block, byte by byte; with 135 bytes both XORs meet in the last byte. -/
def Obligations.PaddedBlockBytes : Prop :=
  ∀ q : Bytes, q.length ≤ 135 →
    (pad q).length = 136 ∧
    (∀ k, k < q.length → (pad q)[k]? = q[k]?) ∧
    (q.length < 135 → (pad q)[q.length]? = some 0x01 ∧ (pad q)[135]? = some 0x80) ∧
    (q.length = 135 → (pad q)[135]? = some 0x81) ∧
    ∀ k, q.length < k → k < 135 → (pad q)[k]? = some 0

/-- R164: the squeeze view is the bytes of lanes 0 to 16 in order, so the capacity makes no difference. -/
def Obligations.SqueezeViewIsTheRate : Prop :=
  ∀ A : Lanes,
    (squeezeBytes A).toList = ((List.range 17).map fun i => le64bytes (lane A i)).flatten ∧
    ∀ B : Lanes, (∀ i, i < 17 → lane B i = lane A i) → squeezeBytes B = squeezeBytes A

/-- R165: full blocks are absorbed from the zero state in order, then the padded remainder; Keccak256 is the first 32
bytes of the squeeze view. -/
def Obligations.SpongeStateOfMessage : Prop :=
  (∀ (blocks : List Bytes) (q : Bytes), (∀ b ∈ blocks, b.length = 136) → q.length < 136 →
    spongeState (blocks.flatten ++ q) = absorbBlock (blocks.foldl absorbBlock (Vector.replicate 25 0)) (pad q)) ∧
  ∀ m : Bytes, (keccak256 m).length = 32 ∧
    ∀ k, k < 32 → (keccak256 m)[k]? = some (blockByte (squeezeBytes (spongeState m)) k)

/-- R173: a message streamed through IN leaves the S, OUT, BLKCNT and PHASE that HASH leaves for the same bytes in DMEM,
and OUT[0..32) is Keccak256 of it. -/
def Obligations.StreamingEqualsHashing : Prop :=
  ∀ (s h : State) (blocks : List Block) (last : Block) (l : Byte), l.toNat ≤ 135 →
    h.srcAddr.toNat + h.srcLen.toNat ≤ dmemBytes h →
    h.srcLen.toNat = 136 * blocks.length + l.toNat →
    (∀ k, k < h.srcLen.toNat →
      dmemRead h (h.srcAddr.toNat + k) = blockByte (blocks.getD (k / 136) last) (k % 136)) →
    ∃ s0 s1 t u, exec .init s = .next s0 ∧ absorbBlocks blocks s0 = some s1 ∧
      exec (.final l) { s1 with inBuf := last } = .next t ∧ exec .hash h = .next u ∧
      t.lanes = u.lanes ∧ t.outBuf = u.outBuf ∧ t.blkCnt = u.blkCnt ∧ t.phase = u.phase ∧
      t.outBuf.toList.take 32 =
        keccak256 ((List.range h.srcLen.toNat).map fun k => dmemRead h (h.srcAddr.toNat + k))

/-- R166, R171: after k SQUEEZE commands S is the k-th permutation of the squeezed state, OUT its squeeze view (block k
of the stream), BLKCNT and PHASE are unchanged. -/
def Obligations.SqueezesYieldTheStream : Prop :=
  ∀ (k : Nat) (s : State), s.phase = .squeezed → s.busy = false → s.outBuf = squeezeBytes s.lanes →
    ∃ t, runCommands (List.replicate k .squeeze) s = some t ∧
      t = { s with lanes := permute^[k] s.lanes, outBuf := squeezeBytes (permute^[k] s.lanes) }

/-! ## The packer (43_packer.md) -/

/-- R200, R201, R204: FormatError exactly for a length that is no multiple of 32 or a count of 2^32 or more; else the
big-endian count, the public inputs, the proof. -/
def Obligations.ProofBlobLayout : Prop :=
  ∀ pi pf : Bytes,
    (packProofBlob pi pf = none ↔
      pi.length % 32 ≠ 0 ∨ pf.length % 32 ≠ 0 ∨ 2 ^ 32 ≤ pf.length / 32 + pi.length / 32) ∧
    ∀ blob, packProofBlob pi pf = some blob →
      blob.length = 4 + 32 * (pi.length / 32 + pf.length / 32) ∧
      ((blob.take 4).foldl (fun a b => 256 * a + b.toNat) 0 = pi.length / 32 + pf.length / 32) ∧
      blob.drop 4 = pi ++ pf

/-- 43_packer.md section 2 with R201: in the hardware the field-count check never fires: sources that pass FORMAT and
RANGE always give a blob. -/
def Obligations.FieldCountAlwaysFits : Prop :=
  ∀ s : State, formatOk s = true → sourcesInRange s = true →
    s.piLen.toNat / 32 + s.pfLen.toNat / 32 ≤ 2 ^ 20 ∧ blobLength s ≤ 2 ^ 25 + 4 ∧
      ∃ blob, packProofBlob (piBytes s) (pfBytes s) = some blob

/-- R202 with R206, R207, R172: after a PACK that succeeds, HASH of the blob where it stands gives the S, OUT, BLKCNT
and PHASE that PROOFID gives before it. -/
def Obligations.HashOfPackedBlobIsProofid : Prop :=
  ∀ s t : State, s.err = false → exec .pack s = .next t → t.err = false →
    ∃ u v, exec .proofid s = .next u ∧
      exec .hash { t with srcAddr := t.dstAddr, srcLen := t.blobLen } = .next v ∧
      u.lanes = v.lanes ∧ u.outBuf = v.outBuf ∧ u.blkCnt = v.blkCnt ∧ u.phase = v.phase ∧ u.phase = .squeezed

/-! ## The host interface (20_memory.md) -/

/-- R51, R52, R61, R62, R63: which host accesses are bus errors, for reads and writes alike. That they and an access
outside the aperture are faults of the host's step is log entry 7. -/
def Obligations.BusErrorsExactly : Prop :=
  ∀ (s : State) (off : Nat) (n : Width) (v : Lane),
    (0x2000000 ≤ off →
      hostRead off n s = .error (.outsideAperture off) ∧ hostWrite off n v s = .error (.outsideAperture off)) ∧
    (off < 0x2000000 → ¬Legal s off n →
      hostRead off n s = .error (.busError off (widthBytes n)) ∧
        hostWrite off n v s = .error (.busError off (widthBytes n))) ∧
    (Legal s off n → (∃ x t, hostRead off n s = .ok (x, t)) ∧ ∃ t, hostWrite off n v s = .ok t)

/-- R69: a read changes no state of the engine and nothing of the host, and with BUSY = 0 nothing at all; `draws` is
the model's count of free values, log entry 4. -/
def Obligations.ReadsChangeNothing : Prop :=
  ∀ (s t : State) (off : Nat) (n : Width) (v : Lane), hostRead off n s = .ok (v, t) →
    t = { s with env := { s.env with draws := t.env.draws } } ∧ (s.busy = false → t = s)

/-- R70, R237: while BUSY = 1 every legal write only sets WDROP. -/
def Obligations.WritesWhileBusyAreDropped : Prop :=
  ∀ (s : State) (off : Nat) (n : Width) (v : Lane), s.busy = true → Legal s off n →
    hostWrite off n v s = .ok { s with wdrop := true }

/-- R30, R237: WDROP stays set until reset or a host write of 1 to STATUS[4] while BUSY = 0. -/
def Obligations.WdropIsSticky : Prop :=
  ∀ s t : State, s.wdrop = true → step s = .next t →
    t.wdrop = true ∨ s.env.resetReq = true ∨
    ∃ v : Lane, hostNext s = some (.write .w4 0x014 v) ∧ s.busy = false ∧ v.getLsbD 4 = true

/-- R54, R70: while BUSY = 1 the identification registers, CMD, the operand registers, the IN window and the reserved
offsets, of the control region and of the buffers, read their values with every legal width, and STATUS reads BUSY = 1,
ERR = 0, ERRCODE = 0, WDROP and 0 in its reserved bits; its PHASE field is free (log entry 4). The premise on ERR and
ERRCODE is the invariant `Inv` of a command in flight. -/
def Obligations.DefinedReadsWhileBusy : Prop :=
  ∀ s : State, s.busy = true → s.err = false → s.errCode = .noError →
    hostRead 0x000 .w4 s = .ok (0x4343454B, s) ∧ hostRead 0x004 .w4 s = .ok (0x00010000, s) ∧
    hostRead 0x008 .w4 s = .ok (BitVec.ofNat 64 (s.dmemSize.log2 + 17 * 256 + 24 * 65536), s) ∧
    hostRead 0x010 .w4 s = .ok (s.cmd.setWidth 64, s) ∧
    hostRead 0x020 .w4 s = .ok (s.srcAddr.setWidth 64, s) ∧ hostRead 0x024 .w4 s = .ok (s.srcLen.setWidth 64, s) ∧
    hostRead 0x028 .w4 s = .ok (s.piAddr.setWidth 64, s) ∧ hostRead 0x02C .w4 s = .ok (s.piLen.setWidth 64, s) ∧
    hostRead 0x030 .w4 s = .ok (s.pfAddr.setWidth 64, s) ∧ hostRead 0x034 .w4 s = .ok (s.pfLen.setWidth 64, s) ∧
    hostRead 0x038 .w4 s = .ok (s.dstAddr.setWidth 64, s) ∧
    (∀ (k : Nat) (n : Width), k < 136 → k % widthBytes n = 0 →
      hostRead (0x200 + k) n s = .ok (littleEndian (widthBytes n) fun j => blockByte s.inBuf (k + j), s)) ∧
    (∀ (off : Nat) (n : Width), off % widthBytes n = 0 →
      (0x1C8 ≤ off ∧ off < 0x200 ∨ 0x288 ≤ off ∧ off < 0x300 ∨ 0x388 ≤ off ∧ off < 0x1000) →
      hostRead off n s = .ok (0, s)) ∧
    (∀ off, off % 4 = 0 → (off = 0x00C ∨ 0x044 ≤ off ∧ off ≤ 0x0FC) → hostRead off .w4 s = .ok (0, s)) ∧
    ∃ v t, hostRead 0x014 .w4 s = .ok (v, t) ∧ v.getLsbD 0 = true ∧ v.getLsbD 1 = false ∧
      v.getLsbD 4 = s.wdrop ∧ v.extractLsb' 5 3 = 0 ∧ v.extractLsb' 8 56 = 0

/-- R53: while BUSY = 0 a 4-byte read of a control register gives the register. -/
def Obligations.ControlRegistersRead : Prop :=
  ∀ s : State, s.busy = false →
    hostRead 0x000 .w4 s = .ok (0x4343454B, s) ∧ hostRead 0x004 .w4 s = .ok (0x00010000, s) ∧
    hostRead 0x008 .w4 s = .ok (BitVec.ofNat 64 (s.dmemSize.log2 + 17 * 256 + 24 * 65536), s) ∧
    hostRead 0x010 .w4 s = .ok (s.cmd.setWidth 64, s) ∧ hostRead 0x014 .w4 s = .ok ((statusWord s).setWidth 64, s) ∧
    hostRead 0x018 .w4 s = .ok (s.errCmd.setWidth 64, s) ∧ hostRead 0x01C .w4 s = .ok (s.blkCnt.setWidth 64, s) ∧
    hostRead 0x020 .w4 s = .ok (s.srcAddr.setWidth 64, s) ∧ hostRead 0x024 .w4 s = .ok (s.srcLen.setWidth 64, s) ∧
    hostRead 0x028 .w4 s = .ok (s.piAddr.setWidth 64, s) ∧ hostRead 0x02C .w4 s = .ok (s.piLen.setWidth 64, s) ∧
    hostRead 0x030 .w4 s = .ok (s.pfAddr.setWidth 64, s) ∧ hostRead 0x034 .w4 s = .ok (s.pfLen.setWidth 64, s) ∧
    hostRead 0x038 .w4 s = .ok (s.dstAddr.setWidth 64, s) ∧ hostRead 0x03C .w4 s = .ok (s.fields.setWidth 64, s) ∧
    hostRead 0x040 .w4 s = .ok (s.blobLen.setWidth 64, s)

/-- R53: the fields of STATUS. -/
def Obligations.StatusFields : Prop :=
  ∀ s : State,
    (statusWord s).getLsbD 0 = s.busy ∧ (statusWord s).getLsbD 1 = s.err ∧
    (statusWord s).extractLsb' 2 2 =
      (match s.phase with | .idle => 0 | .absorbing => 1 | .squeezed => 2) ∧
    (statusWord s).getLsbD 4 = s.wdrop ∧ (statusWord s).extractLsb' 5 3 = 0 ∧
    (statusWord s).extractLsb' 8 8 =
      (match s.errCode with
        | .noError => 0x00 | .illegalOpcode => 0x01 | .reservedBits => 0x02 | .badLen => 0x03 | .badRound => 0x04
        | .phase => 0x05 | .format => 0x06 | .range => 0x07 | .overlap => 0x08) ∧
    (statusWord s).extractLsb' 16 16 = 0

/-- R53, R54, R110: while BUSY = 0, a write to CMD submits the word (the schedule it draws is the model's, log entry 2);
a write to an operand register stores the value and nothing else; a write to STATUS clears WDROP when bit 4 is 1 and
does nothing else; a write to a read-only or reserved control offset does nothing, and a reserved one reads 0. -/
def Obligations.ControlRegistersWrite : Prop :=
  ∀ (s : State) (v : Lane), s.busy = false →
    hostWrite 0x020 .w4 v s = .ok { s with srcAddr := v.setWidth 32 } ∧
    hostWrite 0x024 .w4 v s = .ok { s with srcLen := v.setWidth 32 } ∧
    hostWrite 0x028 .w4 v s = .ok { s with piAddr := v.setWidth 32 } ∧
    hostWrite 0x02C .w4 v s = .ok { s with piLen := v.setWidth 32 } ∧
    hostWrite 0x030 .w4 v s = .ok { s with pfAddr := v.setWidth 32 } ∧
    hostWrite 0x034 .w4 v s = .ok { s with pfLen := v.setWidth 32 } ∧
    hostWrite 0x038 .w4 v s = .ok { s with dstAddr := v.setWidth 32 } ∧
    hostWrite 0x014 .w4 v s = .ok (if v.getLsbD 4 then { s with wdrop := false } else s) ∧
    (∃ t, hostWrite 0x010 .w4 v s = .ok t ∧
      t = { s with cmd := v.setWidth 32, busy := true, err := false, errCode := .noError, env := t.env } ∧
      t.env = { s.env with wait := t.env.wait, schedule := t.env.schedule, draws := t.env.draws }) ∧
    (∀ off ∈ [0x000, 0x004, 0x008, 0x018, 0x01C, 0x03C, 0x040], hostWrite off .w4 v s = .ok s) ∧
    ∀ off, off % 4 = 0 → (off = 0x00C ∨ 0x044 ≤ off ∧ off ≤ 0x0FC) →
      hostRead off .w4 s = .ok (0, s) ∧ hostWrite off .w4 v s = .ok s

/-- R59: the reserved buffer offsets read 0 (while BUSY = 1 too, R70) and ignore writes, with every legal width. -/
def Obligations.ReservedOffsetsInert : Prop :=
  ∀ (s : State) (off : Nat) (n : Width) (v : Lane), off % widthBytes n = 0 →
    (0x1C8 ≤ off ∧ off < 0x200 ∨ 0x288 ≤ off ∧ off < 0x300 ∨ 0x388 ≤ off ∧ off < 0x1000) →
    hostRead off n s = .ok (0, s) ∧ (s.busy = false → hostWrite off n v s = .ok s)

/-- R57, R58, R64: while BUSY = 0, an aligned access of every width in the IN and OUT windows. A read gives the bytes it
covers, a write to IN replaces them and nothing else, a write to OUT changes nothing. -/
def Obligations.InAndOutWindows : Prop :=
  ∀ (s : State) (k : Nat) (n : Width) (v : Lane), s.busy = false → k < 136 → k % widthBytes n = 0 →
    hostRead (0x200 + k) n s = .ok (littleEndian (widthBytes n) fun j => blockByte s.inBuf (k + j), s) ∧
    hostRead (0x300 + k) n s = .ok (littleEndian (widthBytes n) fun j => blockByte s.outBuf (k + j), s) ∧
    (∃ t, hostWrite (0x200 + k) n v s = .ok t ∧ t = { s with inBuf := t.inBuf } ∧
      ∀ j, j < 136 → blockByte t.inBuf j = overwritten k (widthBytes n) v (blockByte s.inBuf) j) ∧
    hostWrite (0x300 + k) n v s = .ok s

/-- R55: while BUSY = 0, lane i (of the rate, or any in IDLE) is read and written whole by an 8-byte access at
0x100 + 8i; a write leaves every other lane and everything else unchanged. -/
def Obligations.StateWindowLanes : Prop :=
  ∀ (s : State) (i : Nat) (v : Lane), s.busy = false → i < 25 → (i < 17 ∨ s.phase = .idle) →
    hostRead (0x100 + 8 * i) .w8 s = .ok (lane s.lanes i, s) ∧
    ∃ t, hostWrite (0x100 + 8 * i) .w8 v s = .ok t ∧ t = { s with lanes := t.lanes } ∧
      ∀ j, j < 25 → lane t.lanes j = if j = i then v else lane s.lanes j

/-- R55, R64, R67: while BUSY = 0, an aligned access of every width in the STATE window, unmasked. A read gives the bytes
it covers, a write replaces them and nothing else; the other bytes of a lane stay. -/
def Obligations.StateWindowBytes : Prop :=
  ∀ (s : State) (b : Nat) (n : Width) (v : Lane), s.busy = false → b < 200 → b % widthBytes n = 0 →
    (b < 136 ∨ s.phase = .idle) →
    hostRead (0x100 + b) n s = .ok (littleEndian (widthBytes n) fun j => stateByte s.lanes (b + j), s) ∧
    ∃ t, hostWrite (0x100 + b) n v s = .ok t ∧ t = { s with lanes := t.lanes } ∧
      ∀ c, c < 200 → stateByte t.lanes c = overwritten b (widthBytes n) v (stateByte s.lanes) c

/-- R56: while PHASE ≠ IDLE an access inside the capacity bytes reads 0 and its write has no effect, and two states
that differ only in their capacity lanes answer every host read alike. For the reads that are unspecified while
BUSY = 1 (R70, 93 U1) that is the model's choice: their free value depends on BASE and the count of draws alone (log
entries 4, 21). -/
def Obligations.CapacityIsMasked : Prop :=
  (∀ (s : State) (off : Nat) (n : Width) (v : Lane), s.busy = false → s.phase ≠ .idle → 0x188 ≤ off →
    off < 0x1C8 → off % widthBytes n = 0 → hostRead off n s = .ok (0, s) ∧ hostWrite off n v s = .ok s) ∧
  ∀ (s : State) (A : Lanes), s.phase ≠ .idle → (∀ i, i < 17 → lane A i = lane s.lanes i) →
    ∀ (off : Nat) (n : Width),
      (hostRead off n { s with lanes := A }).map Prod.fst = (hostRead off n s).map Prod.fst

/-- R60, R64, R67, R79: while BUSY = 0, an aligned read of every width in the DMEM window gives the current bytes,
whoever wrote them, and changes nothing; a write stores its bytes little-endian and changes no other byte of DMEM and
nothing else, and a read of the same width gives it back. -/
def Obligations.DmemWindowIsLittleEndian : Prop :=
  ∀ (s : State) (a : Nat) (n : Width) (v : Lane), s.busy = false → a < dmemBytes s → a % widthBytes n = 0 →
    hostRead (0x1000000 + a) n s = .ok (littleEndian (widthBytes n) fun k => dmemRead s (a + k), s) ∧
    ∃ t, hostWrite (0x1000000 + a) n v s = .ok t ∧ t = { s with dmem := t.dmem } ∧
      (∀ c, dmemRead t c = overwritten a (widthBytes n) v (dmemRead s) c) ∧
      ∃ x, hostRead (0x1000000 + a) n t = .ok (x, t) ∧ x.toNat = v.toNat % 2 ^ (8 * widthBytes n)

/-! ## Reset and the whole machine (70_reset_and_hazards.md) -/

/-- R260: what reset leaves, DMEM apart, which is a free value in every byte (log entry 3). DMEM_BYTES is the reference
configuration of R6, the model's choice of a machine (log entry 5), and so is BASE (log entry 6). -/
def Obligations.ResetValues : Prop :=
  (∀ i, i < 25 → lane State.reset.lanes i = 0) ∧ State.reset.phase = .idle ∧
  (∀ k, k < 136 → blockByte State.reset.inBuf k = 0 ∧ blockByte State.reset.outBuf k = 0) ∧
  State.reset.busy = false ∧ State.reset.cmd = 0 ∧ State.reset.err = false ∧ State.reset.errCode = .noError ∧
  State.reset.wdrop = false ∧ State.reset.errCmd = 0 ∧ State.reset.blkCnt = 0 ∧
  State.reset.srcAddr = 0 ∧ State.reset.srcLen = 0 ∧ State.reset.piAddr = 0 ∧ State.reset.piLen = 0 ∧
  State.reset.pfAddr = 0 ∧ State.reset.pfLen = 0 ∧ State.reset.dstAddr = 0 ∧
  State.reset.fields = 0 ∧ State.reset.blobLen = 0 ∧ statusWord State.reset = 0 ∧
  ∀ a, dmemRead State.reset a = Config.dmemByte State.reset.base 0 a

/-- R261, R262: a pending reset comes before any other step and abandons a command in flight: every element of the
engine has its reset value, DMEM new free values; BASE, DMEM_BYTES and the host stay (log entries 5, 6, 8). An idle machine
keeps its state and starts nothing (log entry 11). -/
def Obligations.ResetAndIdleSteps : Prop :=
  (∀ s : State, s.env.resetReq = true →
    step s = .next { State.reset with
      base := s.base, dmemSize := s.dmemSize, dmemGen := s.dmemGen + 1, env := { s.env with resetReq := false } }) ∧
  ∀ s : State, s.env.resetReq = false → s.busy = false → hostNext s = none → step s = .next s

/-- The invariant `Inv` holds right after reset. -/
def Obligations.ResetMeetsInvariant : Prop := Inv State.reset

/-- Every step keeps the invariant `Inv`, from every state that has it: DMEM canonical and inside DMEM_BYTES (R37, R72),
ERR and ERRCODE clear while a command is in flight (R110), ERR set exactly with an error code (R231), ERRCMD the last
command's word while ERR is set (R232), OUT zero before a hash is finished (D30), BLKCNT zero in IDLE (R24, R32),
BLOB_LEN = 4 + 32·FIELDS once set (R34). -/
def Obligations.StepKeepsInvariant : Prop :=
  ∀ s t : State, Inv s → step s = .next t → Inv t

/-- R243: a step of one instance leaves every other instance of the platform as it was, and each keeps its own BASE, so
the apertures stay apart (the platform as a list of states is log entry 6). -/
def Obligations.InstancesShareNothing : Prop :=
  ∀ (p q : List State) (k : Nat), platformStep p k = .next q →
    q.length = p.length ∧ (∀ j, j ≠ k → q[j]? = p[j]?) ∧
    (∀ s, p[k]? = some s → ∃ t, step s = .next t ∧ q[k]? = some t ∧ t.base = s.base) ∧
    (Platform.wf p = true → Platform.wf q = true)

/-- R98: the host's statements. A write or read is the bus access, and its bus error is the fault (R236); a read assigns
its variable alone; the branches and an EXPECT that holds move the host and change nothing else. `passStatement` moves
the host past a statement (the wait is log entry 2); that a label is a statement's index, and that an EXPECT that fails
is the fault `expectFailed`, is log entry 18. -/
def Obligations.HostStatements : Prop :=
  ∀ (s : State) (t label off : Nat) (n : Width) (mask v c : Lane),
    (passStatement s = { s with env := { s.env with hpc := s.env.hpc + 1, wait := s.env.wait - 1 } }) ∧
    (∀ u, hostWrite off n v (passStatement s) = .ok u → hostExec (.write n off v) s = .next u) ∧
    (∀ f, hostWrite off n v (passStatement s) = .error f → hostExec (.write n off v) s = .fault f) ∧
    (∀ x u, hostRead off n (passStatement s) = .ok (x, u) →
      ∃ w, hostExec (.read n off t) s = .next w ∧ hostVar w t = x ∧
        (∀ j, j ≠ t → hostVar w j = hostVar s j) ∧ w = { u with env := { u.env with vars := w.env.vars } }) ∧
    (∀ f, hostRead off n (passStatement s) = .error f → hostExec (.read n off t) s = .fault f) ∧
    hostExec (.bnz t mask label) s =
      .next (if hostVar s t &&& mask ≠ 0
        then { s with env := { s.env with hpc := label, wait := s.env.wait - 1 } } else passStatement s) ∧
    hostExec (.bz t mask label) s =
      .next (if hostVar s t &&& mask = 0
        then { s with env := { s.env with hpc := label, wait := s.env.wait - 1 } } else passStatement s) ∧
    hostExec (.expect (.masked t mask) v) s =
      (if hostVar s t &&& mask = v then .next (passStatement s) else .fault (.expectFailed s.env.hpc)) ∧
    hostExec (.expect (.var t) v) s =
      (if hostVar s t = v then .next (passStatement s) else .fault (.expectFailed s.env.hpc)) ∧
    hostExec (.expect (.const c) v) s =
      (if c = v then .next (passStatement s) else .fault (.expectFailed s.env.hpc))
end

