-- ==== Sys2Proof/Laws/Lanes.lean ====
section
/-! SUPPORT. State arrays, blocks and byte order: their small lemmas. -/

namespace Sys2Proof.Machine

theorem lane_eq_getElem (A : Lanes) (i : Nat) (h : i < 25) : lane A i = A[i] := by
  unfold lane
  rw [List.getD_eq_getElem?_getD, List.getElem?_eq_getElem (by simpa using h)]
  simp

theorem lane_of_ge (A : Lanes) (i : Nat) (h : 25 ≤ i) : lane A i = 0 := by
  unfold lane
  rw [List.getD_eq_getElem?_getD, List.getElem?_eq_none (by simpa using h)]
  rfl

theorem lanes_ext {A B : Lanes} (h : ∀ i, i < 25 → lane A i = lane B i) : A = B := by
  apply Vector.ext
  intro i hi
  have := h i hi
  rwa [lane_eq_getElem A i hi, lane_eq_getElem B i hi] at this

theorem lane_mkLanes (f : Nat → Lane) (i : Nat) (h : i < 25) : lane (mkLanes f) i = f i := by
  rw [lane_eq_getElem _ i h]
  simp [mkLanes]

@[simp] theorem lane_zeroLanes (i : Nat) : lane zeroLanes i = 0 := by
  by_cases h : i < 25
  · rw [lane_eq_getElem _ i h]
    simp [zeroLanes]
  · exact lane_of_ge _ i (by omega)

theorem blockByte_eq_getElem (b : Block) (k : Nat) (h : k < 136) : blockByte b k = b[k] := by
  unfold blockByte
  rw [List.getD_eq_getElem?_getD, List.getElem?_eq_getElem (by simpa using h)]
  simp

theorem toList_getElem?_eq (b : Block) (k : Nat) (h : k < 136) : b.toList[k]? = some (blockByte b k) := by
  rw [List.getElem?_eq_getElem (by simpa using h), blockByte_eq_getElem b k h]
  simp

theorem block_ext {b c : Block} (h : ∀ k, k < 136 → blockByte b k = blockByte c k) : b = c := by
  apply Vector.ext
  intro i hi
  have := h i hi
  rwa [blockByte_eq_getElem b i hi, blockByte_eq_getElem c i hi] at this

@[simp] theorem blockByte_zeroBlock (k : Nat) : blockByte zeroBlock k = 0 := by
  by_cases h : k < 136
  · rw [blockByte_eq_getElem _ k h]
    simp [zeroBlock]
  · unfold blockByte zeroBlock
    rw [List.getD_eq_getElem?_getD, List.getElem?_eq_none (by simpa using h)]
    rfl

theorem blockByte_setIfInBounds (b : Block) (j k : Nat) (v : Byte) (h : k < 136) :
    blockByte (b.setIfInBounds j v) k = if k = j then v else blockByte b k := by
  rw [blockByte_eq_getElem _ k h, blockByte_eq_getElem _ k h, Vector.getElem_setIfInBounds]
  by_cases hk : j = k
  · simp [hk]
  · rw [if_neg hk, if_neg (Ne.symm hk)]

theorem blockByte_squeezeBytes (A : Lanes) (k : Nat) (h : k < 136) :
    blockByte (squeezeBytes A) k = laneByte (lane A (k / 8)) (k % 8) := by
  have e : (squeezeBytes A)[k] = laneByte (lane A (k / 8)) (k % 8) := by
    unfold squeezeBytes
    rw [Vector.getElem_ofFn]
  exact (blockByte_eq_getElem _ k h).trans e

/-! ### Rotation and bytes of a lane -/

/-- R13 is the rotation of the library, for every amount the engine uses. -/
theorem rotl64_eq_rotateLeft (a : Lane) (n : Nat) (h : n < 64) : rotl64 a n = a.rotateLeft n := by
  unfold rotl64
  split
  · subst_vars
    rw [BitVec.rotateLeft_def]
    simp [BitVec.ushiftRight_eq_zero]
  · rw [BitVec.rotateLeft_def, Nat.mod_eq_of_lt h]

theorem laneByte_eq_extract (v : Lane) (k : Nat) : laneByte v k = v.extractLsb' (8 * k) 8 := rfl

theorem wordByte_eq_extract (v : Word) (k : Nat) : wordByte v k = v.extractLsb' (8 * k) 8 := rfl

theorem getLsbD_laneByte (v : Lane) (k i : Nat) : (laneByte v k).getLsbD i = (decide (i < 8) && v.getLsbD (8 * k + i)) := by
  rw [laneByte_eq_extract, BitVec.getLsbD_extractLsb']

/-- A lane is its eight bytes. -/
theorem lane_ext_bytes {v w : Lane} (h : ∀ k, k < 8 → laneByte v k = laneByte w k) : v = w := by
  apply BitVec.eq_of_getLsbD_eq
  intro i hi
  have hb := congrArg (fun b => b.getLsbD (i % 8)) (h (i / 8) (by omega))
  simp only [getLsbD_laneByte] at hb
  have h8 : decide (i % 8 < 8) = true := by simp; omega
  rw [h8, Nat.div_add_mod] at hb
  simpa using hb

/-- Replacing one byte of a lane leaves the others. -/
theorem laneByte_setLaneByte (v : Lane) (k j : Nat) (b : Byte) (hk : k < 8) (hj : j < 8) :
    laneByte (setLaneByte v k b) j = if j = k then b else laneByte v j := by
  apply BitVec.eq_of_getLsbD_eq
  intro i hi
  have h64 : 8 * j + i < 64 := by omega
  have hff : (0xFF : Lane) = (BitVec.allOnes 8).setWidth 64 := rfl
  rw [getLsbD_laneByte]
  unfold setLaneByte
  rw [hff]
  simp only [BitVec.getLsbD_or, BitVec.getLsbD_and, BitVec.getLsbD_not, BitVec.getLsbD_shiftLeft,
    BitVec.getLsbD_setWidth, BitVec.getLsbD_allOnes]
  by_cases hjk : j = k
  · subst hjk
    have hlow : ¬ (8 * j + i < 8 * j) := by omega
    have hsub : 8 * j + i - 8 * j = i := by omega
    have hi64 : i < 64 := by omega
    simp [hlow, hsub, hi, h64, hi64]
  · rw [if_neg hjk, getLsbD_laneByte]
    rcases Nat.lt_or_gt_of_ne hjk with h | h
    · have hlow : 8 * j + i < 8 * k := by omega
      simp [hlow, hi, h64]
    · have hlow : ¬ (8 * j + i < 8 * k) := by omega
      have hhi : ¬ (8 * j + i - 8 * k < 8) := by omega
      have hb : b.getLsbD (8 * j + i - 8 * k) = false := BitVec.getLsbD_of_ge _ _ (by omega)
      simp [hlow, hhi, hi, h64, hb]

/-- The bytes of a little-endian value (R64). -/
theorem laneByte_leValue (bs : Bytes) (k : Nat) (hk : k < 8) : laneByte (leValue bs) k = bs.getD k 0 := by
  induction bs generalizing k with
  | nil => simp [leValue, laneByte]
  | cons b bs ih =>
    apply BitVec.eq_of_getLsbD_eq
    intro i hi
    rw [getLsbD_laneByte]
    simp only [leValue, BitVec.getLsbD_or, BitVec.getLsbD_setWidth, BitVec.getLsbD_shiftLeft]
    cases k with
    | zero =>
      have hi64 : i < 64 := by omega
      simp [hi, hi64]
    | succ k =>
      have h64 : 8 * (k + 1) + i < 64 := by omega
      have hge : ¬ (8 * (k + 1) + i < 8) := by omega
      have hsub : 8 * (k + 1) + i - 8 = 8 * k + i := by omega
      have hb : b.getLsbD (8 * (k + 1) + i) = false := BitVec.getLsbD_of_ge _ _ (by omega)
      have h := congrArg (fun c => c.getLsbD i) (ih k (by omega))
      simp only [getLsbD_laneByte] at h
      simp only [hi, decide_true, Bool.true_and, h64, hge, decide_false, Bool.not_false, hsub, hb, Bool.false_or] at h ⊢
      simpa using h

theorem leBytes_getElem? (n : Nat) (v : Lane) (k : Nat) (h : k < n) : (leBytes n v)[k]? = some (laneByte v k) := by
  simp [leBytes, h]

@[simp] theorem leBytes_length (n : Nat) (v : Lane) : (leBytes n v).length = n := by simp [leBytes]

/-- Writing a lane's bytes and reading them back is the lane (R14). -/
theorem leValue_leBytes_eight (v : Lane) : leValue (leBytes 8 v) = v := by
  apply lane_ext_bytes
  intro k hk
  rw [laneByte_leValue _ k hk, List.getD_eq_getElem?_getD, leBytes_getElem? 8 v k hk]
  rfl

/-- The little-endian reading as a sum (00_scope.md R14, 20_memory.md R64). -/
theorem leValue_toNat (bs : Bytes) (h : bs.length ≤ 8) :
    (leValue bs).toNat = ((List.range bs.length).map fun k => (bs.getD k 0).toNat * 2 ^ (8 * k)).sum ∧
      (leValue bs).toNat < 2 ^ (8 * bs.length) := by
  induction bs with
  | nil => simp [leValue]
  | cons b bs ih =>
    simp only [List.length_cons] at h
    obtain ⟨h1, h2⟩ := ih (by omega)
    have hb := b.isLt
    have hlt : 2 ^ (8 * bs.length) ≤ 2 ^ 56 := Nat.pow_le_pow_right (by decide) (by omega)
    have e : (leValue (b :: bs)).toNat = b.toNat + 256 * (leValue bs).toNat := by
      simp only [leValue, BitVec.toNat_or, BitVec.toNat_shiftLeft, BitVec.toNat_setWidth]
      rw [Nat.mod_eq_of_lt (by omega), Nat.shiftLeft_eq, Nat.mod_eq_of_lt (by omega)]
      rw [Nat.or_comm, Nat.mul_comm, ← Nat.two_pow_add_eq_or_of_lt (i := 8) (by omega)]
      omega
    constructor
    · rw [e, h1, List.length_cons, List.range_succ_eq_map]
      simp only [List.map_cons, List.map_map, List.sum_cons, List.getD_cons_zero, Function.comp_def,
        List.getD_cons_succ]
      rw [← List.sum_map_mul_left]
      simp only [Nat.mul_zero, Nat.pow_zero, Nat.mul_one]
      congr 2
      apply List.map_congr_left
      intro k _
      rw [Nat.mul_succ, Nat.pow_add]
      ring
    · rw [e, List.length_cons, Nat.mul_add, Nat.pow_add]
      omega

end Sys2Proof.Machine
end

