-- ==== Sys2Proof/Laws/Memory.lean ====
section
/-! SUPPORT. Sorted cells and DMEM: read after write, frames, the canonical form. -/

namespace Sys2Proof.Machine

theorem cellLookup_insert {α : Type} (k j : Nat) (v : α) (m : List (Nat × α)) :
    cellLookup j (cellInsert k v m) = if j = k then some v else cellLookup j m := by
  induction m with
  | nil => by_cases h : k = j <;> simp [cellInsert, cellLookup, h, eq_comm]
  | cons c rest ih =>
    obtain ⟨a, w⟩ := c
    unfold cellInsert
    by_cases h1 : k < a
    · rw [if_pos h1]
      by_cases h : k = j
      · simp [cellLookup, h]
      · simp [cellLookup, h, Ne.symm h]
    · rw [if_neg h1]
      by_cases h2 : k = a
      · subst h2
        by_cases h : k = j
        · simp [cellLookup, h]
        · simp [cellLookup, h, Ne.symm h]
      · rw [if_neg h2]
        unfold cellLookup
        rw [ih]
        by_cases h : a = j
        · have hj : j ≠ k := by omega
          simp [h, hj]
        · simp [h]

theorem cellsFrom_mono {α : Type} {lo lo' : Nat} {m : List (Nat × α)} (h : lo' ≤ lo) (hm : cellsFrom lo m = true) :
    cellsFrom lo' m = true := by
  cases m with
  | nil => rfl
  | cons c rest =>
    simp only [cellsFrom, Bool.and_eq_true, decide_eq_true_eq] at hm ⊢
    exact ⟨by omega, hm.2⟩

theorem cellsFrom_insert {α : Type} (k : Nat) (v : α) (m : List (Nat × α)) (lo : Nat) (hk : lo ≤ k)
    (hm : cellsFrom lo m = true) : cellsFrom lo (cellInsert k v m) = true := by
  induction m generalizing lo with
  | nil => simp [cellInsert, cellsFrom, hk]
  | cons c rest ih =>
    obtain ⟨a, w⟩ := c
    simp only [cellsFrom, Bool.and_eq_true, decide_eq_true_eq] at hm
    unfold cellInsert
    split
    · simp only [cellsFrom, Bool.and_eq_true, decide_eq_true_eq]
      exact ⟨hk, by omega, hm.2⟩
    · split
      · subst_vars
        simp only [cellsFrom, Bool.and_eq_true, decide_eq_true_eq]
        exact ⟨hk, hm.2⟩
      · simp only [cellsFrom, Bool.and_eq_true, decide_eq_true_eq]
        exact ⟨hm.1, ih (a + 1) (by omega) hm.2⟩

theorem all_insert {α : Type} (k : Nat) (v : α) (m : List (Nat × α)) (size : Nat) (hk : k < size)
    (hm : (m.all fun c => decide (c.1 < size)) = true) :
    ((cellInsert k v m).all fun c => decide (c.1 < size)) = true := by
  induction m with
  | nil => simp [cellInsert, hk]
  | cons c rest ih =>
    obtain ⟨a, w⟩ := c
    simp only [List.all_cons, Bool.and_eq_true, decide_eq_true_eq] at hm
    unfold cellInsert
    split
    · simp only [List.all_cons, Bool.and_eq_true, decide_eq_true_eq]
      exact ⟨hk, hm⟩
    · split
      · simp only [List.all_cons, Bool.and_eq_true, decide_eq_true_eq]
        exact ⟨hk, hm.2⟩
      · simp only [List.all_cons, Bool.and_eq_true, decide_eq_true_eq]
        exact ⟨hm.1, ih hm.2⟩

/-- A write inside DMEM keeps the canonical form. -/
theorem Memory.wf_insert {size k : Nat} {b : Byte} {m : List Host.Cell} (hk : k < size)
    (hm : Memory.wf size m = true) : Memory.wf size (cellInsert k b m) = true := by
  simp only [Memory.wf, Bool.and_eq_true] at hm ⊢
  exact ⟨cellsFrom_insert k b m 0 (Nat.zero_le k) hm.1, all_insert k b m size hk hm.2⟩

theorem dmemRead_dmemWrite (a j : Nat) (b : Byte) (s : State) :
    dmemRead (dmemWrite a b s) j = if j = a then b else dmemRead s j := by
  simp only [dmemRead, dmemWrite, cellLookup_insert]
  by_cases h : j = a <;> simp [h]

@[simp] theorem memRead_length (s : State) (a n : Nat) : (memRead s a n).length = n := by simp [memRead]

theorem memRead_getElem? (s : State) (a n k : Nat) (h : k < n) : (memRead s a n)[k]? = some (dmemRead s (a + k)) := by
  simp [memRead, h]

/-- A MemWrite changes DMEM alone. -/
theorem memWrite_frame (a : Nat) (bs : Bytes) (s : State) :
    memWrite a bs s = { s with dmem := (memWrite a bs s).dmem } := by
  induction bs generalizing a s with
  | nil => rfl
  | cons b bs ih =>
    unfold memWrite
    rw [ih (a + 1) (dmemWrite a b s)]
    rfl

/-- A byte below a MemWrite, or above it, is as before. -/
theorem dmemRead_memWrite_outside (a : Nat) (bs : Bytes) (s : State) (j : Nat) (h : j < a ∨ a + bs.length ≤ j) :
    dmemRead (memWrite a bs s) j = dmemRead s j := by
  induction bs generalizing a s with
  | nil => rfl
  | cons b bs ih =>
    simp only [List.length_cons] at h
    unfold memWrite
    rw [ih (a + 1) (dmemWrite a b s) (by omega), dmemRead_dmemWrite, if_neg (by omega)]

/-- A byte inside a MemWrite is the byte written. -/
theorem dmemRead_memWrite_inside (a : Nat) (bs : Bytes) (s : State) (k : Nat) (h : k < bs.length) :
    dmemRead (memWrite a bs s) (a + k) = bs[k] := by
  induction bs generalizing a s k with
  | nil => simp at h
  | cons b bs ih =>
    unfold memWrite
    cases k with
    | zero => rw [dmemRead_memWrite_outside _ _ _ _ (by omega), dmemRead_dmemWrite, if_pos (Nat.add_zero a)]; rfl
    | succ k =>
      simp only [List.length_cons] at h
      have := ih (a + 1) (dmemWrite a b s) k (by omega)
      rw [show a + (k + 1) = a + 1 + k by omega, this]
      rfl

/-- MemRead of a range just written gives the bytes written. -/
theorem memRead_memWrite (a : Nat) (bs : Bytes) (s : State) : memRead (memWrite a bs s) a bs.length = bs := by
  apply List.ext_getElem (by simp)
  intro k h1 h2
  simp only [memRead, List.getElem_map, List.getElem_range]
  exact dmemRead_memWrite_inside a bs s k h2

/-- A MemWrite inside DMEM keeps the canonical form. -/
theorem memWrite_wf (a : Nat) (bs : Bytes) (s : State) (size : Nat) (h : a + bs.length ≤ size)
    (hm : Memory.wf size s.dmem = true) : Memory.wf size (memWrite a bs s).dmem = true := by
  induction bs generalizing a s with
  | nil => exact hm
  | cons b bs ih =>
    simp only [List.length_cons] at h
    unfold memWrite
    exact ih (a + 1) (dmemWrite a b s) (by omega) (Memory.wf_insert (by omega) hm)

/-- Reads depend on DMEM and its power-up contents alone. -/
theorem dmemRead_congr {s t : State} (hd : t.dmem = s.dmem) (hg : t.dmemGen = s.dmemGen) (hb : t.base = s.base)
    (a : Nat) :
    dmemRead t a = dmemRead s a := by
  simp only [dmemRead, hd, hg, hb]

theorem memRead_congr {s t : State} (hd : t.dmem = s.dmem) (hg : t.dmemGen = s.dmemGen) (hb : t.base = s.base)
    (a n : Nat) :
    memRead t a n = memRead s a n := by
  simp only [memRead, dmemRead_congr hd hg hb]

/-- Reset lists no byte of DMEM. -/
theorem reset_memory_wf : Memory.wf (dmemBytes State.reset) State.reset.dmem = true := rfl

end Sys2Proof.Machine
end

