-- ==== Sys2Proof/Laws/State.lean ====
section
/-! SUPPORT. Every field after every update, one lemma each, true by rfl; and the whole state where an update is no plain
record. -/

namespace Sys2Proof.Machine

variable (s : State)

/-! ### complete -/

@[simp] theorem complete_lanes : (complete s).lanes = s.lanes := rfl
@[simp] theorem complete_phase : (complete s).phase = s.phase := rfl
@[simp] theorem complete_inBuf : (complete s).inBuf = s.inBuf := rfl
@[simp] theorem complete_outBuf : (complete s).outBuf = s.outBuf := rfl
@[simp] theorem complete_busy : (complete s).busy = false := rfl
@[simp] theorem complete_cmd : (complete s).cmd = s.cmd := rfl
@[simp] theorem complete_err : (complete s).err = s.err := rfl
@[simp] theorem complete_errCode : (complete s).errCode = s.errCode := rfl
@[simp] theorem complete_wdrop : (complete s).wdrop = s.wdrop := rfl
@[simp] theorem complete_errCmd : (complete s).errCmd = s.errCmd := rfl
@[simp] theorem complete_blkCnt : (complete s).blkCnt = s.blkCnt := rfl
@[simp] theorem complete_srcAddr : (complete s).srcAddr = s.srcAddr := rfl
@[simp] theorem complete_srcLen : (complete s).srcLen = s.srcLen := rfl
@[simp] theorem complete_piAddr : (complete s).piAddr = s.piAddr := rfl
@[simp] theorem complete_piLen : (complete s).piLen = s.piLen := rfl
@[simp] theorem complete_pfAddr : (complete s).pfAddr = s.pfAddr := rfl
@[simp] theorem complete_pfLen : (complete s).pfLen = s.pfLen := rfl
@[simp] theorem complete_dstAddr : (complete s).dstAddr = s.dstAddr := rfl
@[simp] theorem complete_fields : (complete s).fields = s.fields := rfl
@[simp] theorem complete_blobLen : (complete s).blobLen = s.blobLen := rfl
@[simp] theorem complete_dmemSize : (complete s).dmemSize = s.dmemSize := rfl
@[simp] theorem complete_base : (complete s).base = s.base := rfl
@[simp] theorem complete_dmem : (complete s).dmem = s.dmem := rfl
@[simp] theorem complete_dmemGen : (complete s).dmemGen = s.dmemGen := rfl
@[simp] theorem complete_env : (complete s).env = s.env := rfl

/-! ### raiseError -/

@[simp] theorem raiseError_lanes (e : ErrCode) : (raiseError e s).lanes = s.lanes := rfl
@[simp] theorem raiseError_phase (e : ErrCode) : (raiseError e s).phase = s.phase := rfl
@[simp] theorem raiseError_inBuf (e : ErrCode) : (raiseError e s).inBuf = s.inBuf := rfl
@[simp] theorem raiseError_outBuf (e : ErrCode) : (raiseError e s).outBuf = s.outBuf := rfl
@[simp] theorem raiseError_busy (e : ErrCode) : (raiseError e s).busy = false := rfl
@[simp] theorem raiseError_cmd (e : ErrCode) : (raiseError e s).cmd = s.cmd := rfl
@[simp] theorem raiseError_err (e : ErrCode) : (raiseError e s).err = true := rfl
@[simp] theorem raiseError_errCode (e : ErrCode) : (raiseError e s).errCode = e := rfl
@[simp] theorem raiseError_wdrop (e : ErrCode) : (raiseError e s).wdrop = s.wdrop := rfl
@[simp] theorem raiseError_errCmd (e : ErrCode) : (raiseError e s).errCmd = s.cmd := rfl
@[simp] theorem raiseError_blkCnt (e : ErrCode) : (raiseError e s).blkCnt = s.blkCnt := rfl
@[simp] theorem raiseError_srcAddr (e : ErrCode) : (raiseError e s).srcAddr = s.srcAddr := rfl
@[simp] theorem raiseError_srcLen (e : ErrCode) : (raiseError e s).srcLen = s.srcLen := rfl
@[simp] theorem raiseError_piAddr (e : ErrCode) : (raiseError e s).piAddr = s.piAddr := rfl
@[simp] theorem raiseError_piLen (e : ErrCode) : (raiseError e s).piLen = s.piLen := rfl
@[simp] theorem raiseError_pfAddr (e : ErrCode) : (raiseError e s).pfAddr = s.pfAddr := rfl
@[simp] theorem raiseError_pfLen (e : ErrCode) : (raiseError e s).pfLen = s.pfLen := rfl
@[simp] theorem raiseError_dstAddr (e : ErrCode) : (raiseError e s).dstAddr = s.dstAddr := rfl
@[simp] theorem raiseError_fields (e : ErrCode) : (raiseError e s).fields = s.fields := rfl
@[simp] theorem raiseError_blobLen (e : ErrCode) : (raiseError e s).blobLen = s.blobLen := rfl
@[simp] theorem raiseError_dmemSize (e : ErrCode) : (raiseError e s).dmemSize = s.dmemSize := rfl
@[simp] theorem raiseError_base (e : ErrCode) : (raiseError e s).base = s.base := rfl
@[simp] theorem raiseError_dmem (e : ErrCode) : (raiseError e s).dmem = s.dmem := rfl
@[simp] theorem raiseError_dmemGen (e : ErrCode) : (raiseError e s).dmemGen = s.dmemGen := rfl
@[simp] theorem raiseError_env (e : ErrCode) : (raiseError e s).env = s.env := rfl

/-! ### accept -/

@[simp] theorem accept_lanes (w : Word) : (accept w s).lanes = s.lanes := rfl
@[simp] theorem accept_phase (w : Word) : (accept w s).phase = s.phase := rfl
@[simp] theorem accept_inBuf (w : Word) : (accept w s).inBuf = s.inBuf := rfl
@[simp] theorem accept_outBuf (w : Word) : (accept w s).outBuf = s.outBuf := rfl
@[simp] theorem accept_busy (w : Word) : (accept w s).busy = true := rfl
@[simp] theorem accept_cmd (w : Word) : (accept w s).cmd = w := rfl
@[simp] theorem accept_err (w : Word) : (accept w s).err = false := rfl
@[simp] theorem accept_errCode (w : Word) : (accept w s).errCode = .noError := rfl
@[simp] theorem accept_wdrop (w : Word) : (accept w s).wdrop = s.wdrop := rfl
@[simp] theorem accept_errCmd (w : Word) : (accept w s).errCmd = s.errCmd := rfl
@[simp] theorem accept_blkCnt (w : Word) : (accept w s).blkCnt = s.blkCnt := rfl
@[simp] theorem accept_srcAddr (w : Word) : (accept w s).srcAddr = s.srcAddr := rfl
@[simp] theorem accept_srcLen (w : Word) : (accept w s).srcLen = s.srcLen := rfl
@[simp] theorem accept_piAddr (w : Word) : (accept w s).piAddr = s.piAddr := rfl
@[simp] theorem accept_piLen (w : Word) : (accept w s).piLen = s.piLen := rfl
@[simp] theorem accept_pfAddr (w : Word) : (accept w s).pfAddr = s.pfAddr := rfl
@[simp] theorem accept_pfLen (w : Word) : (accept w s).pfLen = s.pfLen := rfl
@[simp] theorem accept_dstAddr (w : Word) : (accept w s).dstAddr = s.dstAddr := rfl
@[simp] theorem accept_fields (w : Word) : (accept w s).fields = s.fields := rfl
@[simp] theorem accept_blobLen (w : Word) : (accept w s).blobLen = s.blobLen := rfl
@[simp] theorem accept_dmemSize (w : Word) : (accept w s).dmemSize = s.dmemSize := rfl
@[simp] theorem accept_base (w : Word) : (accept w s).base = s.base := rfl
@[simp] theorem accept_dmem (w : Word) : (accept w s).dmem = s.dmem := rfl
@[simp] theorem accept_dmemGen (w : Word) : (accept w s).dmemGen = s.dmemGen := rfl
@[simp] theorem accept_env (w : Word) : (accept w s).env = s.env := rfl

/-! ### dmemWrite -/

@[simp] theorem dmemWrite_lanes (a : Nat) (b : Byte) : (dmemWrite a b s).lanes = s.lanes := rfl
@[simp] theorem dmemWrite_phase (a : Nat) (b : Byte) : (dmemWrite a b s).phase = s.phase := rfl
@[simp] theorem dmemWrite_inBuf (a : Nat) (b : Byte) : (dmemWrite a b s).inBuf = s.inBuf := rfl
@[simp] theorem dmemWrite_outBuf (a : Nat) (b : Byte) : (dmemWrite a b s).outBuf = s.outBuf := rfl
@[simp] theorem dmemWrite_busy (a : Nat) (b : Byte) : (dmemWrite a b s).busy = s.busy := rfl
@[simp] theorem dmemWrite_cmd (a : Nat) (b : Byte) : (dmemWrite a b s).cmd = s.cmd := rfl
@[simp] theorem dmemWrite_err (a : Nat) (b : Byte) : (dmemWrite a b s).err = s.err := rfl
@[simp] theorem dmemWrite_errCode (a : Nat) (b : Byte) : (dmemWrite a b s).errCode = s.errCode := rfl
@[simp] theorem dmemWrite_wdrop (a : Nat) (b : Byte) : (dmemWrite a b s).wdrop = s.wdrop := rfl
@[simp] theorem dmemWrite_errCmd (a : Nat) (b : Byte) : (dmemWrite a b s).errCmd = s.errCmd := rfl
@[simp] theorem dmemWrite_blkCnt (a : Nat) (b : Byte) : (dmemWrite a b s).blkCnt = s.blkCnt := rfl
@[simp] theorem dmemWrite_srcAddr (a : Nat) (b : Byte) : (dmemWrite a b s).srcAddr = s.srcAddr := rfl
@[simp] theorem dmemWrite_srcLen (a : Nat) (b : Byte) : (dmemWrite a b s).srcLen = s.srcLen := rfl
@[simp] theorem dmemWrite_piAddr (a : Nat) (b : Byte) : (dmemWrite a b s).piAddr = s.piAddr := rfl
@[simp] theorem dmemWrite_piLen (a : Nat) (b : Byte) : (dmemWrite a b s).piLen = s.piLen := rfl
@[simp] theorem dmemWrite_pfAddr (a : Nat) (b : Byte) : (dmemWrite a b s).pfAddr = s.pfAddr := rfl
@[simp] theorem dmemWrite_pfLen (a : Nat) (b : Byte) : (dmemWrite a b s).pfLen = s.pfLen := rfl
@[simp] theorem dmemWrite_dstAddr (a : Nat) (b : Byte) : (dmemWrite a b s).dstAddr = s.dstAddr := rfl
@[simp] theorem dmemWrite_fields (a : Nat) (b : Byte) : (dmemWrite a b s).fields = s.fields := rfl
@[simp] theorem dmemWrite_blobLen (a : Nat) (b : Byte) : (dmemWrite a b s).blobLen = s.blobLen := rfl
@[simp] theorem dmemWrite_dmemSize (a : Nat) (b : Byte) : (dmemWrite a b s).dmemSize = s.dmemSize := rfl
@[simp] theorem dmemWrite_base (a : Nat) (b : Byte) : (dmemWrite a b s).base = s.base := rfl
@[simp] theorem dmemWrite_dmem (a : Nat) (b : Byte) : (dmemWrite a b s).dmem = cellInsert a b s.dmem := rfl
@[simp] theorem dmemWrite_dmemGen (a : Nat) (b : Byte) : (dmemWrite a b s).dmemGen = s.dmemGen := rfl
@[simp] theorem dmemWrite_env (a : Nat) (b : Byte) : (dmemWrite a b s).env = s.env := rfl

/-! ### startPhase -/

@[simp] theorem startPhase_lanes (p : Phase) : (startPhase p s).lanes = zeroLanes := rfl
@[simp] theorem startPhase_phase (p : Phase) : (startPhase p s).phase = p := rfl
@[simp] theorem startPhase_inBuf (p : Phase) : (startPhase p s).inBuf = s.inBuf := rfl
@[simp] theorem startPhase_outBuf (p : Phase) : (startPhase p s).outBuf = zeroBlock := rfl
@[simp] theorem startPhase_busy (p : Phase) : (startPhase p s).busy = s.busy := rfl
@[simp] theorem startPhase_cmd (p : Phase) : (startPhase p s).cmd = s.cmd := rfl
@[simp] theorem startPhase_err (p : Phase) : (startPhase p s).err = s.err := rfl
@[simp] theorem startPhase_errCode (p : Phase) : (startPhase p s).errCode = s.errCode := rfl
@[simp] theorem startPhase_wdrop (p : Phase) : (startPhase p s).wdrop = s.wdrop := rfl
@[simp] theorem startPhase_errCmd (p : Phase) : (startPhase p s).errCmd = s.errCmd := rfl
@[simp] theorem startPhase_blkCnt (p : Phase) : (startPhase p s).blkCnt = 0 := rfl
@[simp] theorem startPhase_srcAddr (p : Phase) : (startPhase p s).srcAddr = s.srcAddr := rfl
@[simp] theorem startPhase_srcLen (p : Phase) : (startPhase p s).srcLen = s.srcLen := rfl
@[simp] theorem startPhase_piAddr (p : Phase) : (startPhase p s).piAddr = s.piAddr := rfl
@[simp] theorem startPhase_piLen (p : Phase) : (startPhase p s).piLen = s.piLen := rfl
@[simp] theorem startPhase_pfAddr (p : Phase) : (startPhase p s).pfAddr = s.pfAddr := rfl
@[simp] theorem startPhase_pfLen (p : Phase) : (startPhase p s).pfLen = s.pfLen := rfl
@[simp] theorem startPhase_dstAddr (p : Phase) : (startPhase p s).dstAddr = s.dstAddr := rfl
@[simp] theorem startPhase_fields (p : Phase) : (startPhase p s).fields = s.fields := rfl
@[simp] theorem startPhase_blobLen (p : Phase) : (startPhase p s).blobLen = s.blobLen := rfl
@[simp] theorem startPhase_dmemSize (p : Phase) : (startPhase p s).dmemSize = s.dmemSize := rfl
@[simp] theorem startPhase_base (p : Phase) : (startPhase p s).base = s.base := rfl
@[simp] theorem startPhase_dmem (p : Phase) : (startPhase p s).dmem = s.dmem := rfl
@[simp] theorem startPhase_dmemGen (p : Phase) : (startPhase p s).dmemGen = s.dmemGen := rfl
@[simp] theorem startPhase_env (p : Phase) : (startPhase p s).env = s.env := rfl

/-! ### absorbInto -/

@[simp] theorem absorbInto_lanes (b : Bytes) : (absorbInto b s).lanes = absorbBlock s.lanes b := by simp only [absorbInto]
@[simp] theorem absorbInto_phase (b : Bytes) : (absorbInto b s).phase = s.phase := by simp only [absorbInto]
@[simp] theorem absorbInto_inBuf (b : Bytes) : (absorbInto b s).inBuf = s.inBuf := by simp only [absorbInto]
@[simp] theorem absorbInto_outBuf (b : Bytes) : (absorbInto b s).outBuf = s.outBuf := by simp only [absorbInto]
@[simp] theorem absorbInto_busy (b : Bytes) : (absorbInto b s).busy = s.busy := by simp only [absorbInto]
@[simp] theorem absorbInto_cmd (b : Bytes) : (absorbInto b s).cmd = s.cmd := by simp only [absorbInto]
@[simp] theorem absorbInto_err (b : Bytes) : (absorbInto b s).err = s.err := by simp only [absorbInto]
@[simp] theorem absorbInto_errCode (b : Bytes) : (absorbInto b s).errCode = s.errCode := by simp only [absorbInto]
@[simp] theorem absorbInto_wdrop (b : Bytes) : (absorbInto b s).wdrop = s.wdrop := by simp only [absorbInto]
@[simp] theorem absorbInto_errCmd (b : Bytes) : (absorbInto b s).errCmd = s.errCmd := by simp only [absorbInto]
@[simp] theorem absorbInto_blkCnt (b : Bytes) : (absorbInto b s).blkCnt = s.blkCnt + 1 := by simp only [absorbInto]
@[simp] theorem absorbInto_srcAddr (b : Bytes) : (absorbInto b s).srcAddr = s.srcAddr := by simp only [absorbInto]
@[simp] theorem absorbInto_srcLen (b : Bytes) : (absorbInto b s).srcLen = s.srcLen := by simp only [absorbInto]
@[simp] theorem absorbInto_piAddr (b : Bytes) : (absorbInto b s).piAddr = s.piAddr := by simp only [absorbInto]
@[simp] theorem absorbInto_piLen (b : Bytes) : (absorbInto b s).piLen = s.piLen := by simp only [absorbInto]
@[simp] theorem absorbInto_pfAddr (b : Bytes) : (absorbInto b s).pfAddr = s.pfAddr := by simp only [absorbInto]
@[simp] theorem absorbInto_pfLen (b : Bytes) : (absorbInto b s).pfLen = s.pfLen := by simp only [absorbInto]
@[simp] theorem absorbInto_dstAddr (b : Bytes) : (absorbInto b s).dstAddr = s.dstAddr := by simp only [absorbInto]
@[simp] theorem absorbInto_fields (b : Bytes) : (absorbInto b s).fields = s.fields := by simp only [absorbInto]
@[simp] theorem absorbInto_blobLen (b : Bytes) : (absorbInto b s).blobLen = s.blobLen := by simp only [absorbInto]
@[simp] theorem absorbInto_dmemSize (b : Bytes) : (absorbInto b s).dmemSize = s.dmemSize := by simp only [absorbInto]
@[simp] theorem absorbInto_base (b : Bytes) : (absorbInto b s).base = s.base := by simp only [absorbInto]
@[simp] theorem absorbInto_dmem (b : Bytes) : (absorbInto b s).dmem = s.dmem := by simp only [absorbInto]
@[simp] theorem absorbInto_dmemGen (b : Bytes) : (absorbInto b s).dmemGen = s.dmemGen := by simp only [absorbInto]
@[simp] theorem absorbInto_env (b : Bytes) : (absorbInto b s).env = s.env := by simp only [absorbInto]

/-! ### squeezeOut -/

@[simp] theorem squeezeOut_lanes : (squeezeOut s).lanes = s.lanes := by simp only [squeezeOut]
@[simp] theorem squeezeOut_phase : (squeezeOut s).phase = s.phase := by simp only [squeezeOut]
@[simp] theorem squeezeOut_inBuf : (squeezeOut s).inBuf = s.inBuf := by simp only [squeezeOut]
@[simp] theorem squeezeOut_outBuf : (squeezeOut s).outBuf = squeezeBytes s.lanes := by simp only [squeezeOut]
@[simp] theorem squeezeOut_busy : (squeezeOut s).busy = s.busy := by simp only [squeezeOut]
@[simp] theorem squeezeOut_cmd : (squeezeOut s).cmd = s.cmd := by simp only [squeezeOut]
@[simp] theorem squeezeOut_err : (squeezeOut s).err = s.err := by simp only [squeezeOut]
@[simp] theorem squeezeOut_errCode : (squeezeOut s).errCode = s.errCode := by simp only [squeezeOut]
@[simp] theorem squeezeOut_wdrop : (squeezeOut s).wdrop = s.wdrop := by simp only [squeezeOut]
@[simp] theorem squeezeOut_errCmd : (squeezeOut s).errCmd = s.errCmd := by simp only [squeezeOut]
@[simp] theorem squeezeOut_blkCnt : (squeezeOut s).blkCnt = s.blkCnt := by simp only [squeezeOut]
@[simp] theorem squeezeOut_srcAddr : (squeezeOut s).srcAddr = s.srcAddr := by simp only [squeezeOut]
@[simp] theorem squeezeOut_srcLen : (squeezeOut s).srcLen = s.srcLen := by simp only [squeezeOut]
@[simp] theorem squeezeOut_piAddr : (squeezeOut s).piAddr = s.piAddr := by simp only [squeezeOut]
@[simp] theorem squeezeOut_piLen : (squeezeOut s).piLen = s.piLen := by simp only [squeezeOut]
@[simp] theorem squeezeOut_pfAddr : (squeezeOut s).pfAddr = s.pfAddr := by simp only [squeezeOut]
@[simp] theorem squeezeOut_pfLen : (squeezeOut s).pfLen = s.pfLen := by simp only [squeezeOut]
@[simp] theorem squeezeOut_dstAddr : (squeezeOut s).dstAddr = s.dstAddr := by simp only [squeezeOut]
@[simp] theorem squeezeOut_fields : (squeezeOut s).fields = s.fields := by simp only [squeezeOut]
@[simp] theorem squeezeOut_blobLen : (squeezeOut s).blobLen = s.blobLen := by simp only [squeezeOut]
@[simp] theorem squeezeOut_dmemSize : (squeezeOut s).dmemSize = s.dmemSize := by simp only [squeezeOut]
@[simp] theorem squeezeOut_base : (squeezeOut s).base = s.base := by simp only [squeezeOut]
@[simp] theorem squeezeOut_dmem : (squeezeOut s).dmem = s.dmem := by simp only [squeezeOut]
@[simp] theorem squeezeOut_dmemGen : (squeezeOut s).dmemGen = s.dmemGen := by simp only [squeezeOut]
@[simp] theorem squeezeOut_env : (squeezeOut s).env = s.env := by simp only [squeezeOut]

/-! ### finishHash -/

@[simp] theorem finishHash_lanes (m : Bytes) : (finishHash m s).lanes = spongeState m := by simp only [finishHash]
@[simp] theorem finishHash_phase (m : Bytes) : (finishHash m s).phase = .squeezed := by simp only [finishHash]
@[simp] theorem finishHash_inBuf (m : Bytes) : (finishHash m s).inBuf = s.inBuf := by simp only [finishHash]
@[simp] theorem finishHash_outBuf (m : Bytes) : (finishHash m s).outBuf = squeezeBytes (spongeState m) := by simp only [finishHash]
@[simp] theorem finishHash_busy (m : Bytes) : (finishHash m s).busy = s.busy := by simp only [finishHash]
@[simp] theorem finishHash_cmd (m : Bytes) : (finishHash m s).cmd = s.cmd := by simp only [finishHash]
@[simp] theorem finishHash_err (m : Bytes) : (finishHash m s).err = s.err := by simp only [finishHash]
@[simp] theorem finishHash_errCode (m : Bytes) : (finishHash m s).errCode = s.errCode := by simp only [finishHash]
@[simp] theorem finishHash_wdrop (m : Bytes) : (finishHash m s).wdrop = s.wdrop := by simp only [finishHash]
@[simp] theorem finishHash_errCmd (m : Bytes) : (finishHash m s).errCmd = s.errCmd := by simp only [finishHash]
@[simp] theorem finishHash_blkCnt (m : Bytes) : (finishHash m s).blkCnt = blockCount m.length := by simp only [finishHash]
@[simp] theorem finishHash_srcAddr (m : Bytes) : (finishHash m s).srcAddr = s.srcAddr := by simp only [finishHash]
@[simp] theorem finishHash_srcLen (m : Bytes) : (finishHash m s).srcLen = s.srcLen := by simp only [finishHash]
@[simp] theorem finishHash_piAddr (m : Bytes) : (finishHash m s).piAddr = s.piAddr := by simp only [finishHash]
@[simp] theorem finishHash_piLen (m : Bytes) : (finishHash m s).piLen = s.piLen := by simp only [finishHash]
@[simp] theorem finishHash_pfAddr (m : Bytes) : (finishHash m s).pfAddr = s.pfAddr := by simp only [finishHash]
@[simp] theorem finishHash_pfLen (m : Bytes) : (finishHash m s).pfLen = s.pfLen := by simp only [finishHash]
@[simp] theorem finishHash_dstAddr (m : Bytes) : (finishHash m s).dstAddr = s.dstAddr := by simp only [finishHash]
@[simp] theorem finishHash_fields (m : Bytes) : (finishHash m s).fields = s.fields := by simp only [finishHash]
@[simp] theorem finishHash_blobLen (m : Bytes) : (finishHash m s).blobLen = s.blobLen := by simp only [finishHash]
@[simp] theorem finishHash_dmemSize (m : Bytes) : (finishHash m s).dmemSize = s.dmemSize := by simp only [finishHash]
@[simp] theorem finishHash_base (m : Bytes) : (finishHash m s).base = s.base := by simp only [finishHash]
@[simp] theorem finishHash_dmem (m : Bytes) : (finishHash m s).dmem = s.dmem := by simp only [finishHash]
@[simp] theorem finishHash_dmemGen (m : Bytes) : (finishHash m s).dmemGen = s.dmemGen := by simp only [finishHash]
@[simp] theorem finishHash_env (m : Bytes) : (finishHash m s).env = s.env := by simp only [finishHash]

/-! ### recordBlob -/

@[simp] theorem recordBlob_lanes : (recordBlob s).lanes = s.lanes := by simp only [recordBlob]
@[simp] theorem recordBlob_phase : (recordBlob s).phase = s.phase := by simp only [recordBlob]
@[simp] theorem recordBlob_inBuf : (recordBlob s).inBuf = s.inBuf := by simp only [recordBlob]
@[simp] theorem recordBlob_outBuf : (recordBlob s).outBuf = s.outBuf := by simp only [recordBlob]
@[simp] theorem recordBlob_busy : (recordBlob s).busy = s.busy := by simp only [recordBlob]
@[simp] theorem recordBlob_cmd : (recordBlob s).cmd = s.cmd := by simp only [recordBlob]
@[simp] theorem recordBlob_err : (recordBlob s).err = s.err := by simp only [recordBlob]
@[simp] theorem recordBlob_errCode : (recordBlob s).errCode = s.errCode := by simp only [recordBlob]
@[simp] theorem recordBlob_wdrop : (recordBlob s).wdrop = s.wdrop := by simp only [recordBlob]
@[simp] theorem recordBlob_errCmd : (recordBlob s).errCmd = s.errCmd := by simp only [recordBlob]
@[simp] theorem recordBlob_blkCnt : (recordBlob s).blkCnt = s.blkCnt := by simp only [recordBlob]
@[simp] theorem recordBlob_srcAddr : (recordBlob s).srcAddr = s.srcAddr := by simp only [recordBlob]
@[simp] theorem recordBlob_srcLen : (recordBlob s).srcLen = s.srcLen := by simp only [recordBlob]
@[simp] theorem recordBlob_piAddr : (recordBlob s).piAddr = s.piAddr := by simp only [recordBlob]
@[simp] theorem recordBlob_piLen : (recordBlob s).piLen = s.piLen := by simp only [recordBlob]
@[simp] theorem recordBlob_pfAddr : (recordBlob s).pfAddr = s.pfAddr := by simp only [recordBlob]
@[simp] theorem recordBlob_pfLen : (recordBlob s).pfLen = s.pfLen := by simp only [recordBlob]
@[simp] theorem recordBlob_dstAddr : (recordBlob s).dstAddr = s.dstAddr := by simp only [recordBlob]
@[simp] theorem recordBlob_fields : (recordBlob s).fields = BitVec.ofNat 32 (s.piLen.toNat / 32 + s.pfLen.toNat / 32) := by simp only [recordBlob]
@[simp] theorem recordBlob_blobLen : (recordBlob s).blobLen = BitVec.ofNat 32 (blobLength s) := by simp only [recordBlob]
@[simp] theorem recordBlob_dmemSize : (recordBlob s).dmemSize = s.dmemSize := by simp only [recordBlob]
@[simp] theorem recordBlob_base : (recordBlob s).base = s.base := by simp only [recordBlob]
@[simp] theorem recordBlob_dmem : (recordBlob s).dmem = s.dmem := by simp only [recordBlob]
@[simp] theorem recordBlob_dmemGen : (recordBlob s).dmemGen = s.dmemGen := by simp only [recordBlob]
@[simp] theorem recordBlob_env : (recordBlob s).env = s.env := by simp only [recordBlob]

/-! ### passStatement -/

@[simp] theorem passStatement_lanes : (passStatement s).lanes = s.lanes := rfl
@[simp] theorem passStatement_phase : (passStatement s).phase = s.phase := rfl
@[simp] theorem passStatement_inBuf : (passStatement s).inBuf = s.inBuf := rfl
@[simp] theorem passStatement_outBuf : (passStatement s).outBuf = s.outBuf := rfl
@[simp] theorem passStatement_busy : (passStatement s).busy = s.busy := rfl
@[simp] theorem passStatement_cmd : (passStatement s).cmd = s.cmd := rfl
@[simp] theorem passStatement_err : (passStatement s).err = s.err := rfl
@[simp] theorem passStatement_errCode : (passStatement s).errCode = s.errCode := rfl
@[simp] theorem passStatement_wdrop : (passStatement s).wdrop = s.wdrop := rfl
@[simp] theorem passStatement_errCmd : (passStatement s).errCmd = s.errCmd := rfl
@[simp] theorem passStatement_blkCnt : (passStatement s).blkCnt = s.blkCnt := rfl
@[simp] theorem passStatement_srcAddr : (passStatement s).srcAddr = s.srcAddr := rfl
@[simp] theorem passStatement_srcLen : (passStatement s).srcLen = s.srcLen := rfl
@[simp] theorem passStatement_piAddr : (passStatement s).piAddr = s.piAddr := rfl
@[simp] theorem passStatement_piLen : (passStatement s).piLen = s.piLen := rfl
@[simp] theorem passStatement_pfAddr : (passStatement s).pfAddr = s.pfAddr := rfl
@[simp] theorem passStatement_pfLen : (passStatement s).pfLen = s.pfLen := rfl
@[simp] theorem passStatement_dstAddr : (passStatement s).dstAddr = s.dstAddr := rfl
@[simp] theorem passStatement_fields : (passStatement s).fields = s.fields := rfl
@[simp] theorem passStatement_blobLen : (passStatement s).blobLen = s.blobLen := rfl
@[simp] theorem passStatement_dmemSize : (passStatement s).dmemSize = s.dmemSize := rfl
@[simp] theorem passStatement_base : (passStatement s).base = s.base := rfl
@[simp] theorem passStatement_dmem : (passStatement s).dmem = s.dmem := rfl
@[simp] theorem passStatement_dmemGen : (passStatement s).dmemGen = s.dmemGen := rfl
@[simp] theorem passStatement_env : (passStatement s).env = { s.env with hpc := s.env.hpc + 1, wait := s.env.wait - 1 } := rfl

/-! ### hostGoto -/

@[simp] theorem hostGoto_lanes (l : Nat) : (hostGoto l s).lanes = s.lanes := rfl
@[simp] theorem hostGoto_phase (l : Nat) : (hostGoto l s).phase = s.phase := rfl
@[simp] theorem hostGoto_inBuf (l : Nat) : (hostGoto l s).inBuf = s.inBuf := rfl
@[simp] theorem hostGoto_outBuf (l : Nat) : (hostGoto l s).outBuf = s.outBuf := rfl
@[simp] theorem hostGoto_busy (l : Nat) : (hostGoto l s).busy = s.busy := rfl
@[simp] theorem hostGoto_cmd (l : Nat) : (hostGoto l s).cmd = s.cmd := rfl
@[simp] theorem hostGoto_err (l : Nat) : (hostGoto l s).err = s.err := rfl
@[simp] theorem hostGoto_errCode (l : Nat) : (hostGoto l s).errCode = s.errCode := rfl
@[simp] theorem hostGoto_wdrop (l : Nat) : (hostGoto l s).wdrop = s.wdrop := rfl
@[simp] theorem hostGoto_errCmd (l : Nat) : (hostGoto l s).errCmd = s.errCmd := rfl
@[simp] theorem hostGoto_blkCnt (l : Nat) : (hostGoto l s).blkCnt = s.blkCnt := rfl
@[simp] theorem hostGoto_srcAddr (l : Nat) : (hostGoto l s).srcAddr = s.srcAddr := rfl
@[simp] theorem hostGoto_srcLen (l : Nat) : (hostGoto l s).srcLen = s.srcLen := rfl
@[simp] theorem hostGoto_piAddr (l : Nat) : (hostGoto l s).piAddr = s.piAddr := rfl
@[simp] theorem hostGoto_piLen (l : Nat) : (hostGoto l s).piLen = s.piLen := rfl
@[simp] theorem hostGoto_pfAddr (l : Nat) : (hostGoto l s).pfAddr = s.pfAddr := rfl
@[simp] theorem hostGoto_pfLen (l : Nat) : (hostGoto l s).pfLen = s.pfLen := rfl
@[simp] theorem hostGoto_dstAddr (l : Nat) : (hostGoto l s).dstAddr = s.dstAddr := rfl
@[simp] theorem hostGoto_fields (l : Nat) : (hostGoto l s).fields = s.fields := rfl
@[simp] theorem hostGoto_blobLen (l : Nat) : (hostGoto l s).blobLen = s.blobLen := rfl
@[simp] theorem hostGoto_dmemSize (l : Nat) : (hostGoto l s).dmemSize = s.dmemSize := rfl
@[simp] theorem hostGoto_base (l : Nat) : (hostGoto l s).base = s.base := rfl
@[simp] theorem hostGoto_dmem (l : Nat) : (hostGoto l s).dmem = s.dmem := rfl
@[simp] theorem hostGoto_dmemGen (l : Nat) : (hostGoto l s).dmemGen = s.dmemGen := rfl
@[simp] theorem hostGoto_env (l : Nat) : (hostGoto l s).env = { s.env with hpc := l } := rfl

/-! ### setHostVar -/

@[simp] theorem setHostVar_lanes (t : Nat) (v : Lane) : (setHostVar t v s).lanes = s.lanes := rfl
@[simp] theorem setHostVar_phase (t : Nat) (v : Lane) : (setHostVar t v s).phase = s.phase := rfl
@[simp] theorem setHostVar_inBuf (t : Nat) (v : Lane) : (setHostVar t v s).inBuf = s.inBuf := rfl
@[simp] theorem setHostVar_outBuf (t : Nat) (v : Lane) : (setHostVar t v s).outBuf = s.outBuf := rfl
@[simp] theorem setHostVar_busy (t : Nat) (v : Lane) : (setHostVar t v s).busy = s.busy := rfl
@[simp] theorem setHostVar_cmd (t : Nat) (v : Lane) : (setHostVar t v s).cmd = s.cmd := rfl
@[simp] theorem setHostVar_err (t : Nat) (v : Lane) : (setHostVar t v s).err = s.err := rfl
@[simp] theorem setHostVar_errCode (t : Nat) (v : Lane) : (setHostVar t v s).errCode = s.errCode := rfl
@[simp] theorem setHostVar_wdrop (t : Nat) (v : Lane) : (setHostVar t v s).wdrop = s.wdrop := rfl
@[simp] theorem setHostVar_errCmd (t : Nat) (v : Lane) : (setHostVar t v s).errCmd = s.errCmd := rfl
@[simp] theorem setHostVar_blkCnt (t : Nat) (v : Lane) : (setHostVar t v s).blkCnt = s.blkCnt := rfl
@[simp] theorem setHostVar_srcAddr (t : Nat) (v : Lane) : (setHostVar t v s).srcAddr = s.srcAddr := rfl
@[simp] theorem setHostVar_srcLen (t : Nat) (v : Lane) : (setHostVar t v s).srcLen = s.srcLen := rfl
@[simp] theorem setHostVar_piAddr (t : Nat) (v : Lane) : (setHostVar t v s).piAddr = s.piAddr := rfl
@[simp] theorem setHostVar_piLen (t : Nat) (v : Lane) : (setHostVar t v s).piLen = s.piLen := rfl
@[simp] theorem setHostVar_pfAddr (t : Nat) (v : Lane) : (setHostVar t v s).pfAddr = s.pfAddr := rfl
@[simp] theorem setHostVar_pfLen (t : Nat) (v : Lane) : (setHostVar t v s).pfLen = s.pfLen := rfl
@[simp] theorem setHostVar_dstAddr (t : Nat) (v : Lane) : (setHostVar t v s).dstAddr = s.dstAddr := rfl
@[simp] theorem setHostVar_fields (t : Nat) (v : Lane) : (setHostVar t v s).fields = s.fields := rfl
@[simp] theorem setHostVar_blobLen (t : Nat) (v : Lane) : (setHostVar t v s).blobLen = s.blobLen := rfl
@[simp] theorem setHostVar_dmemSize (t : Nat) (v : Lane) : (setHostVar t v s).dmemSize = s.dmemSize := rfl
@[simp] theorem setHostVar_base (t : Nat) (v : Lane) : (setHostVar t v s).base = s.base := rfl
@[simp] theorem setHostVar_dmem (t : Nat) (v : Lane) : (setHostVar t v s).dmem = s.dmem := rfl
@[simp] theorem setHostVar_dmemGen (t : Nat) (v : Lane) : (setHostVar t v s).dmemGen = s.dmemGen := rfl
@[simp] theorem setHostVar_env (t : Nat) (v : Lane) : (setHostVar t v s).env = { s.env with vars := cellInsert t v s.env.vars } := rfl

/-! ### countDraw -/

@[simp] theorem countDraw_lanes : (countDraw s).lanes = s.lanes := rfl
@[simp] theorem countDraw_phase : (countDraw s).phase = s.phase := rfl
@[simp] theorem countDraw_inBuf : (countDraw s).inBuf = s.inBuf := rfl
@[simp] theorem countDraw_outBuf : (countDraw s).outBuf = s.outBuf := rfl
@[simp] theorem countDraw_busy : (countDraw s).busy = s.busy := rfl
@[simp] theorem countDraw_cmd : (countDraw s).cmd = s.cmd := rfl
@[simp] theorem countDraw_err : (countDraw s).err = s.err := rfl
@[simp] theorem countDraw_errCode : (countDraw s).errCode = s.errCode := rfl
@[simp] theorem countDraw_wdrop : (countDraw s).wdrop = s.wdrop := rfl
@[simp] theorem countDraw_errCmd : (countDraw s).errCmd = s.errCmd := rfl
@[simp] theorem countDraw_blkCnt : (countDraw s).blkCnt = s.blkCnt := rfl
@[simp] theorem countDraw_srcAddr : (countDraw s).srcAddr = s.srcAddr := rfl
@[simp] theorem countDraw_srcLen : (countDraw s).srcLen = s.srcLen := rfl
@[simp] theorem countDraw_piAddr : (countDraw s).piAddr = s.piAddr := rfl
@[simp] theorem countDraw_piLen : (countDraw s).piLen = s.piLen := rfl
@[simp] theorem countDraw_pfAddr : (countDraw s).pfAddr = s.pfAddr := rfl
@[simp] theorem countDraw_pfLen : (countDraw s).pfLen = s.pfLen := rfl
@[simp] theorem countDraw_dstAddr : (countDraw s).dstAddr = s.dstAddr := rfl
@[simp] theorem countDraw_fields : (countDraw s).fields = s.fields := rfl
@[simp] theorem countDraw_blobLen : (countDraw s).blobLen = s.blobLen := rfl
@[simp] theorem countDraw_dmemSize : (countDraw s).dmemSize = s.dmemSize := rfl
@[simp] theorem countDraw_base : (countDraw s).base = s.base := rfl
@[simp] theorem countDraw_dmem : (countDraw s).dmem = s.dmem := rfl
@[simp] theorem countDraw_dmemGen : (countDraw s).dmemGen = s.dmemGen := rfl
@[simp] theorem countDraw_env : (countDraw s).env = { s.env with draws := s.env.draws + 1 } := rfl

/-! ### drawLatency: only the schedule changes -/

@[simp] theorem drawLatency_lanes : (drawLatency s).lanes = s.lanes := by
  unfold drawLatency; split <;> rfl

@[simp] theorem drawLatency_phase : (drawLatency s).phase = s.phase := by
  unfold drawLatency; split <;> rfl

@[simp] theorem drawLatency_inBuf : (drawLatency s).inBuf = s.inBuf := by
  unfold drawLatency; split <;> rfl

@[simp] theorem drawLatency_outBuf : (drawLatency s).outBuf = s.outBuf := by
  unfold drawLatency; split <;> rfl

@[simp] theorem drawLatency_busy : (drawLatency s).busy = s.busy := by
  unfold drawLatency; split <;> rfl

@[simp] theorem drawLatency_cmd : (drawLatency s).cmd = s.cmd := by
  unfold drawLatency; split <;> rfl

@[simp] theorem drawLatency_err : (drawLatency s).err = s.err := by
  unfold drawLatency; split <;> rfl

@[simp] theorem drawLatency_errCode : (drawLatency s).errCode = s.errCode := by
  unfold drawLatency; split <;> rfl

@[simp] theorem drawLatency_wdrop : (drawLatency s).wdrop = s.wdrop := by
  unfold drawLatency; split <;> rfl

@[simp] theorem drawLatency_errCmd : (drawLatency s).errCmd = s.errCmd := by
  unfold drawLatency; split <;> rfl

@[simp] theorem drawLatency_blkCnt : (drawLatency s).blkCnt = s.blkCnt := by
  unfold drawLatency; split <;> rfl

@[simp] theorem drawLatency_srcAddr : (drawLatency s).srcAddr = s.srcAddr := by
  unfold drawLatency; split <;> rfl

@[simp] theorem drawLatency_srcLen : (drawLatency s).srcLen = s.srcLen := by
  unfold drawLatency; split <;> rfl

@[simp] theorem drawLatency_piAddr : (drawLatency s).piAddr = s.piAddr := by
  unfold drawLatency; split <;> rfl

@[simp] theorem drawLatency_piLen : (drawLatency s).piLen = s.piLen := by
  unfold drawLatency; split <;> rfl

@[simp] theorem drawLatency_pfAddr : (drawLatency s).pfAddr = s.pfAddr := by
  unfold drawLatency; split <;> rfl

@[simp] theorem drawLatency_pfLen : (drawLatency s).pfLen = s.pfLen := by
  unfold drawLatency; split <;> rfl

@[simp] theorem drawLatency_dstAddr : (drawLatency s).dstAddr = s.dstAddr := by
  unfold drawLatency; split <;> rfl

@[simp] theorem drawLatency_fields : (drawLatency s).fields = s.fields := by
  unfold drawLatency; split <;> rfl

@[simp] theorem drawLatency_blobLen : (drawLatency s).blobLen = s.blobLen := by
  unfold drawLatency; split <;> rfl

@[simp] theorem drawLatency_base : (drawLatency s).base = s.base := by
  unfold drawLatency; split <;> rfl

@[simp] theorem drawLatency_dmemSize : (drawLatency s).dmemSize = s.dmemSize := by
  unfold drawLatency; split <;> rfl

@[simp] theorem drawLatency_dmem : (drawLatency s).dmem = s.dmem := by
  unfold drawLatency; split <;> rfl

@[simp] theorem drawLatency_dmemGen : (drawLatency s).dmemGen = s.dmemGen := by
  unfold drawLatency; split <;> rfl

/-- Drawing a latency changes the schedule of the environment alone. -/
theorem drawLatency_frame :
    drawLatency s = { s with env := { s.env with
      wait := (drawLatency s).env.wait, schedule := (drawLatency s).env.schedule, draws := (drawLatency s).env.draws } } := by
  unfold drawLatency; split <;> rfl

end Sys2Proof.Machine
end

