-- ==== Sys2Proof/Laws/Exec.lean ====
section
/-! SUPPORT. What each command can do, said once: the checks as propositions, the effect of each command, and the inversion
of exec. -/

namespace Sys2Proof.Machine

/-! ### The checks, over the naturals -/

theorem dmemBytes_le (s : State) : dmemBytes s ≤ 2 ^ 24 := by
  unfold dmemBytes Config.DmemSize.bytes Config.DmemSize.log2
  exact Nat.pow_le_pow_right (by decide) (by omega)

theorem dmemBytes_ge (s : State) : 2 ^ 8 ≤ dmemBytes s := by
  unfold dmemBytes Config.DmemSize.bytes Config.DmemSize.log2
  exact Nat.pow_le_pow_right (by decide) (by omega)

theorem eight_dvd_dmemBytes (s : State) : dmemBytes s % 8 = 0 := by
  unfold dmemBytes Config.DmemSize.bytes Config.DmemSize.log2
  rw [Nat.pow_add]
  omega

theorem srcInRange_iff (s : State) : srcInRange s = true ↔ s.srcAddr.toNat + s.srcLen.toNat ≤ dmemBytes s := by
  simp [srcInRange, inRange]

theorem sourcesInRange_iff (s : State) : sourcesInRange s = true ↔
    s.piAddr.toNat + s.piLen.toNat ≤ dmemBytes s ∧ s.pfAddr.toNat + s.pfLen.toNat ≤ dmemBytes s := by
  simp [sourcesInRange, inRange]

theorem destInRange_iff (s : State) : destInRange s = true ↔
    s.dstAddr.toNat + (4 + s.piLen.toNat + s.pfLen.toNat) ≤ dmemBytes s := by
  rw [destInRange, inRange, decide_eq_true_eq, blobLength]

theorem formatOk_iff (s : State) : formatOk s = true ↔ s.piLen.toNat % 32 = 0 ∧ s.pfLen.toNat % 32 = 0 := by
  simp [formatOk]

/-- The overlap check with a destination that is never empty (R73). -/
theorem destOverlaps_iff (s : State) : destOverlaps s = true ↔
    (0 < s.piLen.toNat ∧ s.dstAddr.toNat < s.piAddr.toNat + s.piLen.toNat ∧
        s.piAddr.toNat < s.dstAddr.toNat + (4 + s.piLen.toNat + s.pfLen.toNat)) ∨
      0 < s.pfLen.toNat ∧ s.dstAddr.toNat < s.pfAddr.toNat + s.pfLen.toNat ∧
        s.pfAddr.toNat < s.dstAddr.toNat + (4 + s.piLen.toNat + s.pfLen.toNat) := by
  have h : 0 < blobLength s := by unfold blobLength; omega
  simp only [destOverlaps, overlap, Bool.or_eq_true, Bool.and_eq_true, decide_eq_true_eq, h, true_and, and_assoc]

/-! ### The blob -/

@[simp] theorem be32bytes_length (v : Word) : (be32bytes v).length = 4 := rfl

theorem packProofBlob_none_iff (pi pf : Bytes) : packProofBlob pi pf = none ↔
    pi.length % 32 ≠ 0 ∨ pf.length % 32 ≠ 0 ∨ 2 ^ 32 ≤ pf.length / 32 + pi.length / 32 := by
  unfold packProofBlob
  split
  · rename_i h
    simp only [true_iff]
    rcases h with h | h
    · exact .inl h
    · exact .inr (.inl h)
  · split
    · rename_i h
      simp only [true_iff]
      exact .inr (.inr h)
    · rename_i h1 h2
      simp only [reduceCtorEq, false_iff]
      omega

theorem packProofBlob_some {pi pf blob : Bytes} (h : packProofBlob pi pf = some blob) :
    blob = be32bytes (BitVec.ofNat 32 (pf.length / 32 + pi.length / 32)) ++ pi ++ pf := by
  unfold packProofBlob at h
  split at h
  · cases h
  · split at h
    · cases h
    · exact (Option.some.inj h).symm

/-- The blob of the operands in DMEM (R200, R206). -/
def blobOf (s : State) : Bytes :=
  be32bytes (BitVec.ofNat 32 (s.pfLen.toNat / 32 + s.piLen.toNat / 32)) ++ piBytes s ++ pfBytes s

@[simp] theorem piBytes_length (s : State) : (piBytes s).length = s.piLen.toNat := memRead_length ..

@[simp] theorem pfBytes_length (s : State) : (pfBytes s).length = s.pfLen.toNat := memRead_length ..

@[simp] theorem srcBytes_length (s : State) : (srcBytes s).length = s.srcLen.toNat := memRead_length ..

@[simp] theorem blobOf_length (s : State) : (blobOf s).length = blobLength s := by
  simp [blobOf, blobLength]
  omega

/-- Operands that pass FORMAT pack into their blob: with 32-bit lengths FormatError cannot arise there (R201). -/
theorem packProofBlob_of_checks (s : State) (hf : formatOk s = true) :
    packProofBlob (piBytes s) (pfBytes s) = some (blobOf s) := by
  rw [formatOk_iff] at hf
  cases h : packProofBlob (piBytes s) (pfBytes s) with
  | none =>
    rw [packProofBlob_none_iff] at h
    simp only [piBytes_length, pfBytes_length] at h
    omega
  | some blob =>
    rw [packProofBlob_some h]
    simp [blobOf]

/-! ### The inversion of exec -/

/-- The errors a command's own checks can raise (60_exceptions.md R235, and the operand checks of R95). -/
def commandErrors : Instr → List ErrCode
  | .nop | .clear | .permute | .theta | .rhopi | .chi | .init => []
  | .round _ | .iota _ => [.badRound]
  | .absorb | .squeeze => [.phase]
  | .final _ => [.badLen, .phase]
  | .hash => [.range]
  | .pack => [.format, .range, .overlap]
  | .proofid => [.format, .range]

/-- What a command does when its checks pass, its completion apart. -/
def effect : Instr → State → State
  | .nop, s => s
  | .clear, s => startPhase .idle s
  | .permute, s => { s with lanes := permute s.lanes }
  | .round r, s => { s with lanes := keccakRound s.lanes r.toNat }
  | .theta, s => { s with lanes := theta s.lanes }
  | .rhopi, s => { s with lanes := rhoPi s.lanes }
  | .chi, s => { s with lanes := chi s.lanes }
  | .iota r, s => { s with lanes := iota s.lanes r.toNat }
  | .init, s => startPhase .absorbing s
  | .absorb, s => absorbInto s.inBuf.toList s
  | .final l, s => { squeezeOut (absorbInto (pad (s.inBuf.toList.take l.toNat)) s) with phase := .squeezed }
  | .squeeze, s => squeezeOut { s with lanes := permute s.lanes }
  | .hash, s => finishHash (srcBytes s) s
  | .pack, s => recordBlob (memWrite s.dstAddr.toNat (blobOf s) s)
  | .proofid, s => recordBlob (finishHash (blobOf s) s)

/-- When a command's checks pass. -/
def ready : Instr → State → Prop
  | .nop, _ | .clear, _ | .permute, _ | .theta, _ | .rhopi, _ | .chi, _ | .init, _ => True
  | .round r, _ | .iota r, _ => r.toNat ≤ 23
  | .absorb, s => s.phase = .absorbing
  | .final l, s => l.toNat ≤ 135 ∧ s.phase = .absorbing
  | .squeeze, s => s.phase = .squeezed
  | .hash, s => srcInRange s = true
  | .pack, s => formatOk s = true ∧ sourcesInRange s = true ∧ destInRange s = true ∧ destOverlaps s = false
  | .proofid, s => formatOk s = true ∧ sourcesInRange s = true

/-- A command whose checks pass has its effect and completes. -/
theorem exec_of_ready (i : Instr) (s : State) (h : ready i s) : exec i s = .next (complete (effect i s)) := by
  cases i <;> simp only [ready] at h <;>
    simp only [exec, effect, execNop, execClear, execPermute, execRound, execTheta, execRhopi, execChi, execIota,
      execInit, execAbsorb, execFinal, execSqueeze, execHash, execPack, execProofid, withLanes, immValue]
  case round r => rw [if_neg (by omega)]
  case iota r => rw [if_neg (by omega)]
  case absorb => rw [if_neg (by simp [h])]
  case final l => rw [if_neg (by omega), if_neg (by simp [h.2])]
  case squeeze => rw [if_neg (by simp [h])]
  case hash => rw [if_neg (by simp [h])]
  case pack =>
    obtain ⟨hf, hr, hd, ho⟩ := h
    rw [if_neg (by simp [hf]), if_neg (by simp [hr, hd]), if_neg (by simp [ho]), packProofBlob_of_checks s hf]
  case proofid =>
    obtain ⟨hf, hr⟩ := h
    rw [if_neg (by simp [hf]), if_neg (by simp [hr]), packProofBlob_of_checks s hf]

/-- A command whose checks fail raises one of its errors. -/
theorem exec_of_not_ready (i : Instr) (s : State) (h : ¬ready i s) :
    ∃ e ∈ commandErrors i, exec i s = .next (raiseError e s) := by
  cases i <;> simp only [ready, not_true_eq_false] at h <;>
    simp only [exec, commandErrors, execRound, execIota, execAbsorb, execFinal, execSqueeze, execHash, execPack,
      execProofid, immValue]
  case round r => exact ⟨_, by simp, if_pos (by omega)⟩
  case iota r => exact ⟨_, by simp, if_pos (by omega)⟩
  case absorb => exact ⟨_, by simp, if_pos h⟩
  case final l =>
    by_cases hl : 135 < l.toNat
    · exact ⟨.badLen, by simp, if_pos hl⟩
    · refine ⟨.phase, by simp, ?_⟩
      rw [if_neg hl, if_pos fun hp => h ⟨by omega, hp⟩]
  case squeeze => exact ⟨_, by simp, if_pos h⟩
  case hash => exact ⟨_, by simp, if_pos (by simpa using h)⟩
  case pack =>
    by_cases hf : formatOk s = false
    · exact ⟨.format, by simp, if_pos hf⟩
    · by_cases hr : sourcesInRange s = false ∨ destInRange s = false
      · exact ⟨.range, by simp, by rw [if_neg hf, if_pos hr]⟩
      · refine ⟨.overlap, by simp, ?_⟩
        rw [if_neg hf, if_neg hr, if_pos]
        by_contra ho
        exact h ⟨by simpa using hf, by simp at hr; exact hr.1, by simp at hr; exact hr.2, by simpa using ho⟩
  case proofid =>
    by_cases hf : formatOk s = false
    · exact ⟨.format, by simp, if_pos hf⟩
    · refine ⟨.range, by simp, ?_⟩
      rw [if_neg hf, if_pos]
      by_contra hr
      exact h ⟨by simpa using hf, by simpa using hr⟩

/-- Everything exec can do: one recorded error of the command's, or its effect and the completion. -/
theorem exec_inversion {i : Instr} {s t : State} (h : exec i s = .next t) :
    (∃ e ∈ commandErrors i, ¬ready i s ∧ t = raiseError e s) ∨ ready i s ∧ t = complete (effect i s) := by
  by_cases hr : ready i s
  · rw [exec_of_ready i s hr] at h
    cases h
    exact .inr ⟨hr, rfl⟩
  · obtain ⟨e, he, hx⟩ := exec_of_not_ready i s hr
    rw [hx] at h
    cases h
    exact .inl ⟨e, he, hr, rfl⟩

end Sys2Proof.Machine
end

