-- ==== Sys2Proof/Laws/Bus.lean ====
section
/-! SUPPORT. The host's accesses: which are legal, what a register, a window and DMEM answer, what a write changes. -/

namespace Sys2Proof.Machine

/-! ### The address map (R51) -/

theorem widthBytes_cases (n : Width) : widthBytes n = 1 ∨ widthBytes n = 2 ∨ widthBytes n = 4 ∨ widthBytes n = 8 := by
  cases n <;> simp [widthBytes]

theorem region_control (s : State) {off : Nat} (h : off < 0x100) : region s off = .control := if_pos h

theorem region_state (s : State) {off : Nat} (h : 0x100 ≤ off) (h' : off < 0x1C8) : region s off = .stateWin := by
  unfold region
  split_ifs <;> first | rfl | omega

theorem region_in (s : State) {off : Nat} (h : 0x200 ≤ off) (h' : off < 0x288) : region s off = .inWin := by
  unfold region
  split_ifs <;> first | rfl | omega

theorem region_out (s : State) {off : Nat} (h : 0x300 ≤ off) (h' : off < 0x388) : region s off = .outWin := by
  unfold region
  split_ifs <;> first | rfl | omega

theorem region_reserved (s : State) {off : Nat}
    (h : 0x1C8 ≤ off ∧ off < 0x200 ∨ 0x288 ≤ off ∧ off < 0x300 ∨ 0x388 ≤ off ∧ off < 0x1000) :
    region s off = .reserved := by
  unfold region
  split_ifs <;> first | rfl | omega

theorem region_dmem (s : State) {off : Nat} (h : 0x1000000 ≤ off) (h' : off < 0x1000000 + dmemBytes s) :
    region s off = .dmemWin := by
  unfold region dmemBase
  split_ifs <;> first | rfl | omega

theorem region_outside (s : State) {off : Nat} (h : 0x2000000 ≤ off) : region s off = .outside := by
  have hd := dmemBytes_le s
  unfold region dmemBase
  split_ifs <;> first | rfl | omega

theorem region_unmapped (s : State) {off : Nat}
    (h : 0x1000 ≤ off ∧ off < 0x1000000 ∨ 0x1000000 + dmemBytes s ≤ off ∧ off < 0x2000000) :
    region s off = .unmapped := by
  unfold region dmemBase
  split_ifs <;> first | rfl | omega

/-- The address map depends on DMEM_BYTES alone. -/
theorem region_congr {s t : State} (h : t.dmemSize = s.dmemSize) (off : Nat) : region t off = region s off := by
  have hd : dmemBytes t = dmemBytes s := by rw [dmemBytes, dmemBytes, h]
  unfold region
  rw [hd]

theorem accessFault_congr {s t : State} (h : t.dmemSize = s.dmemSize) (off : Nat) (n : Width) :
    accessFault t off n = accessFault s off n := by
  simp only [accessFault, region_congr h]

/-- Which accesses are legal (R52, R61, R63). -/
theorem accessFault_none_iff (s : State) (off : Nat) (n : Width) : accessFault s off n = none ↔
    (off < 0x1000 ∨ 0x1000000 ≤ off ∧ off < 0x1000000 + dmemBytes s) ∧ off % widthBytes n = 0 ∧
      (off < 0x100 → n = .w4) := by
  have hd := dmemBytes_le s
  unfold accessFault
  by_cases h1 : off < 0x100
  · rw [region_control s h1]
    simp only [h1, forall_const]
    constructor
    · intro h
      split at h
      · rename_i hc
        obtain ⟨rfl, h4⟩ := hc
        exact ⟨.inl (by omega), h4, rfl⟩
      · cases h
    · rintro ⟨_, h4, rfl⟩
      exact if_pos ⟨rfl, h4⟩
  · by_cases h2 : off < 0x1000
    · have hr : region s off = .stateWin ∨ region s off = .inWin ∨ region s off = .outWin ∨ region s off = .reserved := by
        by_cases a : off < 0x1C8
        · exact .inl (region_state s (by omega) a)
        · by_cases b : 0x200 ≤ off ∧ off < 0x288
          · exact .inr (.inl (region_in s b.1 b.2))
          · by_cases c : 0x300 ≤ off ∧ off < 0x388
            · exact .inr (.inr (.inl (region_out s c.1 c.2)))
            · exact .inr (.inr (.inr (region_reserved s (by omega))))
      have hgoal : (if off % widthBytes n = 0 then none else some (Fault.busError off (widthBytes n))) = none ↔
          (off < 0x1000 ∨ 0x1000000 ≤ off ∧ off < 0x1000000 + dmemBytes s) ∧ off % widthBytes n = 0 ∧
            (off < 0x100 → n = .w4) := by
        by_cases hm : off % widthBytes n = 0
        · simp [hm, h2, h1]
        · simp [hm]
      rcases hr with hr | hr | hr | hr <;> rw [hr] <;> exact hgoal
    · by_cases h3 : 0x1000000 ≤ off ∧ off < 0x1000000 + dmemBytes s
      · rw [region_dmem s h3.1 h3.2]
        by_cases hm : off % widthBytes n = 0
        · simp [hm, h1, h3.1, h3.2]
        · simp [hm]
      · by_cases h4 : off < 0x2000000
        · rw [region_unmapped s (by omega)]
          simp [h2, h3]
        · rw [region_outside s (by omega)]
          simp [h2, h3]

/-- An access that is not legal is a bus error, or outside the aperture (R61, R62). -/
theorem accessFault_some {s : State} {off : Nat} {n : Width} {f : Fault} (h : accessFault s off n = some f) :
    f = if 0x2000000 ≤ off then .outsideAperture off else .busError off (widthBytes n) := by
  have hd := dmemBytes_le s
  by_cases ho : 0x2000000 ≤ off
  · unfold accessFault at h
    rw [region_outside s ho] at h
    rw [if_pos ho]
    exact (Option.some.inj h).symm
  · have hne : region s off ≠ .outside := by
      unfold region
      repeat' split
      all_goals simp
      all_goals omega
    rw [if_neg ho]
    unfold accessFault at h
    split at h
    · rename_i hr; exact absurd hr hne
    · exact (Option.some.inj h).symm
    all_goals
      split at h
      · cases h
      · exact (Option.some.inj h).symm

/-! ### Reads -/

theorem hostRead_idle {s : State} {off : Nat} {n : Width} (hf : accessFault s off n = none) (hb : s.busy = false) :
    hostRead off n s = .ok (readValue s off n, s) := by
  simp [hostRead, hf, hb]

theorem hostRead_busy_defined {s : State} {off : Nat} {n : Width} (hf : accessFault s off n = none)
    (ho : off ≠ 0x014) (hu : busyUnspecified s off = false) : hostRead off n s = .ok (readValue s off n, s) := by
  unfold hostRead
  rw [hf]
  cases s.busy <;> simp [ho, hu]

/-- No read changes anything but the count of free values (R69). -/
theorem hostRead_frame {s t : State} {off : Nat} {n : Width} {v : Lane} (h : hostRead off n s = .ok (v, t)) :
    t = { s with env := { s.env with draws := t.env.draws } } ∧ (s.busy = false → t = s) := by
  unfold hostRead at h
  split at h
  · cases h
  · split at h
    · rename_i hb
      split at h
      · cases h; exact ⟨rfl, fun hc => by rw [hb] at hc; cases hc⟩
      · split at h
        · cases h; exact ⟨rfl, fun hc => by rw [hb] at hc; cases hc⟩
        · cases h; exact ⟨rfl, fun _ => rfl⟩
    · cases h; exact ⟨rfl, fun _ => rfl⟩

theorem laneByte_ext_zero {v : Lane} (h : ∀ k, k < 8 → laneByte v k = 0) : v = 0 := by
  apply lane_ext_bytes
  intro k hk
  rw [h k hk]
  simp [laneByte]

/-- Byte k of what a legal read answers (R64). -/
theorem laneByte_readValue (s : State) (off : Nat) (n : Width) (k : Nat) (hk : k < 8) :
    laneByte (readValue s off n) k = if k < widthBytes n then byteAt s (off + k) else 0 := by
  unfold readValue
  rw [laneByte_leValue _ _ hk]
  by_cases h : k < widthBytes n
  · rw [if_pos h, List.getD_eq_getElem?_getD]
    simp [h]
  · rw [if_neg h, List.getD_eq_getElem?_getD]
    simp [h]

/-- A byte read. -/
theorem readValue_w1 (s : State) (off : Nat) : readValue s off .w1 = (byteAt s off).setWidth 64 := by
  simp [readValue, widthBytes, leValue, List.range_succ]

theorem laneByte_setWidth_word (w : Word) (k : Nat) (hk : k < 8) :
    laneByte (w.setWidth 64) k = if k < 4 then wordByte w k else 0 := by
  apply BitVec.eq_of_getLsbD_eq
  intro i hi
  rw [getLsbD_laneByte]
  simp only [BitVec.getLsbD_setWidth]
  by_cases h4 : k < 4
  · rw [if_pos h4, wordByte_eq_extract, BitVec.getLsbD_extractLsb']
    have : 8 * k + i < 64 := by omega
    simp [this]
  · rw [if_neg h4]
    have : w.getLsbD (8 * k + i) = false := BitVec.getLsbD_of_ge _ _ (by omega)
    simp [this]

/-! ### The register map -/

theorem registerAt_regOffset (r : RegName) : registerAt (regOffset r) = some r := by
  cases r <;> rfl

theorem regOffset_of_registerAt {off : Nat} {r : RegName} (h : registerAt off = some r) : regOffset r = off := by
  simpa using List.find?_some h

theorem regOffset_lt (r : RegName) : regOffset r < 0x100 ∧ regOffset r % 4 = 0 := by
  cases r <;> decide

/-- A reserved control offset holds no register (R54). -/
theorem registerAt_reserved {off : Nat} (h : off = 0x00C ∨ 0x040 < off) : registerAt off = none := by
  refine List.find?_eq_none.2 fun r _ hr => ?_
  have e : regOffset r = off := by simpa using hr
  cases r <;> simp only [regOffset] at e <;> omega

theorem readRegister_regOffset (s : State) (r : RegName) : readRegister s (regOffset r) = registerValue s r := by
  rw [readRegister, registerAt_regOffset]

theorem readRegister_reserved (s : State) {off : Nat} (h : off = 0x00C ∨ 0x040 < off) : readRegister s off = 0 := by
  rw [readRegister, registerAt_reserved h]

theorem writeRegister_reserved (w : Word) (s : State) {off : Nat} (h : off = 0x00C ∨ 0x040 < off) :
    writeRegister off w s = s := by
  rw [writeRegister, registerAt_reserved h]

/-- A 4-byte read of the control region is the register (R64). -/
theorem readValue_control (s : State) (off : Nat) (h : off < 0x100) (h4 : off % 4 = 0) :
    readValue s off .w4 = (readRegister s off).setWidth 64 := by
  apply lane_ext_bytes
  intro k hk
  rw [laneByte_readValue s off .w4 k hk, laneByte_setWidth_word _ k hk]
  by_cases hk4 : k < 4
  · simp only [hk4, if_true]
    unfold byteAt
    rw [region_control s (by omega), show (off + k) % 4 = k by omega, show off + k - k = off by omega]
  · simp only [hk4, if_false]

/-! ### Writes -/

theorem hostWrite_busy {s : State} {off : Nat} {n : Width} (v : Lane) (hf : accessFault s off n = none)
    (hb : s.busy = true) : hostWrite off n v s = .ok { s with wdrop := true } := by
  simp [hostWrite, hf, hb]

theorem hostWrite_control {s : State} {off : Nat} (v : Lane) (h : off < 0x100) (h4 : off % 4 = 0)
    (hb : s.busy = false) : hostWrite off .w4 v s = .ok (writeRegister off (v.setWidth 32) s) := by
  have hf : accessFault s off .w4 = none := (accessFault_none_iff s off .w4).2 ⟨.inl (by omega), h4, fun _ => rfl⟩
  simp [hostWrite, hf, hb, region_control s h]

theorem hostWrite_window {s : State} {off : Nat} {n : Width} (v : Lane) (hf : accessFault s off n = none)
    (h : 0x100 ≤ off) (hb : s.busy = false) :
    hostWrite off n v s = .ok (writeBytesAt off (leBytes (widthBytes n) v) s) := by
  unfold hostWrite
  rw [hf, hb]
  simp only [Bool.false_eq_true, if_false]
  split
  · rename_i hr
    exfalso
    unfold region at hr
    rw [if_neg (by omega)] at hr
    repeat' split at hr
    all_goals cases hr
  all_goals rfl

/-- Everything a host write can do. -/
theorem hostWrite_inversion {s t : State} {off : Nat} {n : Width} {v : Lane} (h : hostWrite off n v s = .ok t) :
    accessFault s off n = none ∧
      (s.busy = true ∧ t = { s with wdrop := true } ∨
        s.busy = false ∧ off < 0x100 ∧ n = .w4 ∧ t = writeRegister off (v.setWidth 32) s ∨
        s.busy = false ∧ 0x100 ≤ off ∧ t = writeBytesAt off (leBytes (widthBytes n) v) s) := by
  cases hf : accessFault s off n with
  | some f => simp [hostWrite, hf] at h
  | none =>
    refine ⟨rfl, ?_⟩
    by_cases hb : s.busy = true
    · rw [hostWrite_busy v hf hb] at h
      exact .inl ⟨hb, (Except.ok.inj h).symm⟩
    · replace hb : s.busy = false := by simpa using hb
      by_cases ho : off < 0x100
      · have hl := (accessFault_none_iff s off n).1 hf
        obtain rfl := hl.2.2 ho
        rw [hostWrite_control v ho hl.2.1 hb] at h
        exact .inr (.inl ⟨hb, ho, rfl, (Except.ok.inj h).symm⟩)
      · rw [hostWrite_window v hf (by omega) hb] at h
        exact .inr (.inr ⟨hb, by omega, (Except.ok.inj h).symm⟩)

/-- A byte written to a window changes S, IN or DMEM, nothing else. -/
theorem writeByteAt_frame (off : Nat) (b : Byte) (s : State) :
    writeByteAt off b s =
      { s with
        lanes := (writeByteAt off b s).lanes, inBuf := (writeByteAt off b s).inBuf
        dmem := (writeByteAt off b s).dmem } := by
  unfold writeByteAt
  repeat' split
  all_goals rfl

theorem writeBytesAt_frame (off : Nat) (bs : Bytes) (s : State) :
    writeBytesAt off bs s =
      { s with
        lanes := (writeBytesAt off bs s).lanes, inBuf := (writeBytesAt off bs s).inBuf
        dmem := (writeBytesAt off bs s).dmem } := by
  induction bs generalizing off s with
  | nil => rfl
  | cons b bs ih =>
    unfold writeBytesAt
    rw [ih (off + 1) (writeByteAt off b s), writeByteAt_frame off b s]

/-- Bytes that change nothing one by one change nothing together. -/
theorem writeBytesAt_inert (off : Nat) (bs : Bytes) (s : State)
    (h : ∀ k b, k < bs.length → writeByteAt (off + k) b s = s) : writeBytesAt off bs s = s := by
  induction bs generalizing off with
  | nil => rfl
  | cons b bs ih =>
    unfold writeBytesAt
    rw [show writeByteAt off b s = s from h 0 b (by simp)]
    apply ih
    intro k c hk
    rw [show off + 1 + k = off + (k + 1) by omega]
    exact h (k + 1) c (by simpa using hk)

/-- A write inside the DMEM window is a MemWrite (R60). -/
theorem writeBytesAt_dmem (a : Nat) (bs : Bytes) (s : State) (h : a + bs.length ≤ dmemBytes s) :
    writeBytesAt (0x1000000 + a) bs s = memWrite a bs s := by
  induction bs generalizing a s with
  | nil => rfl
  | cons b bs ih =>
    simp only [List.length_cons] at h
    have hw : writeByteAt (0x1000000 + a) b s = dmemWrite a b s := by
      unfold writeByteAt
      rw [region_dmem s (by omega) (by omega)]
      simp only [dmemBase]
      rw [show 0x1000000 + a - 0x1000000 = a by omega]
    unfold writeBytesAt memWrite
    rw [hw, show 0x1000000 + a + 1 = 0x1000000 + (a + 1) by omega]
    exact ih (a + 1) (dmemWrite a b s) (by show a + 1 + bs.length ≤ dmemBytes s; omega)

/-- A masked capacity byte ignores a write (R56). -/
theorem writeByteAt_masked {s : State} {off : Nat} (b : Byte) (h : 0x188 ≤ off) (h' : off < 0x1C8)
    (hp : s.phase ≠ .idle) : writeByteAt off b s = s := by
  unfold writeByteAt
  rw [region_state s (by omega) h']
  have : capacityMasked s (off - 0x100) = true := by
    simp [capacityMasked, hp]
    omega
  simp [this]

/-- Byte c of the STATE window, 8 bytes a lane (R55). -/
def windowByte (A : Lanes) (c : Nat) : Byte := laneByte (lane A (c / 8)) (c % 8)

theorem lanes_ext_window {A B : Lanes} (h : ∀ c, c < 200 → windowByte A c = windowByte B c) : A = B := by
  apply lanes_ext
  intro i hi
  apply lane_ext_bytes
  intro k hk
  have := h (8 * i + k) (by omega)
  unfold windowByte at this
  rwa [show (8 * i + k) / 8 = i by omega, show (8 * i + k) % 8 = k by omega] at this

/-- An unmasked byte of the STATE window, written: that byte of S and nothing else (R55). -/
theorem writeByteAt_state {s : State} {c : Nat} (b : Byte) (hc : c < 200) (hm : c < 136 ∨ s.phase = .idle) :
    writeByteAt (0x100 + c) b s = { s with lanes := (writeByteAt (0x100 + c) b s).lanes } ∧
      ∀ d, d < 200 → windowByte (writeByteAt (0x100 + c) b s).lanes d =
        if d = c then b else windowByte s.lanes d := by
  have hmask : capacityMasked s c = false := by
    rcases hm with h | h
    · simp [capacityMasked]; omega
    · simp [capacityMasked, h]
  have hw : writeByteAt (0x100 + c) b s = { s with
      lanes := mkLanes fun i =>
        if i = c / 8 then setLaneByte (lane s.lanes i) (c % 8) b else lane s.lanes i } := by
    unfold writeByteAt
    rw [region_state s (by omega) (by omega), show 0x100 + c - 0x100 = c by omega]
    simp only [hmask, Bool.false_eq_true, if_false]
  rw [hw]
  refine ⟨rfl, fun d hd => ?_⟩
  unfold windowByte
  simp only
  rw [lane_mkLanes _ _ (by omega)]
  by_cases h8 : d / 8 = c / 8
  · rw [if_pos h8, laneByte_setLaneByte _ _ _ _ (by omega) (by omega)]
    by_cases hdc : d = c
    · rw [if_pos (by rw [hdc]), if_pos hdc]
    · rw [if_neg (by omega), if_neg hdc]
  · rw [if_neg h8, if_neg (by rintro rfl; exact h8 rfl)]

/-- Unmasked bytes of the STATE window, written in a row. -/
theorem writeBytesAt_state (bs : Bytes) {s : State} {c : Nat} (hc : c + bs.length ≤ 200)
    (hm : c + bs.length ≤ 136 ∨ s.phase = .idle) :
    writeBytesAt (0x100 + c) bs s = { s with lanes := (writeBytesAt (0x100 + c) bs s).lanes } ∧
      ∀ d, d < 200 → windowByte (writeBytesAt (0x100 + c) bs s).lanes d =
        if h : c ≤ d ∧ d - c < bs.length then bs[d - c]'h.2 else windowByte s.lanes d := by
  induction bs generalizing s c with
  | nil => exact ⟨rfl, fun d _ => by simp [writeBytesAt]⟩
  | cons b bs ih =>
    simp only [List.length_cons] at hc hm
    have h1 := writeByteAt_state (s := s) b (show c < 200 by omega)
      (hm.imp_left fun h => by omega)
    obtain ⟨e1, w1⟩ := h1
    have hph : (writeByteAt (0x100 + c) b s).phase = s.phase := by rw [e1]
    have h2 := ih (s := writeByteAt (0x100 + c) b s) (c := c + 1) (by omega)
      (by rw [hph]; exact hm.imp_left fun h => by omega)
    obtain ⟨e2, w2⟩ := h2
    have hunf : writeBytesAt (0x100 + c) (b :: bs) s = writeBytesAt (0x100 + (c + 1)) bs (writeByteAt (0x100 + c) b s) := rfl
    rw [hunf]
    refine ⟨by rw [e2, e1], fun d hd => ?_⟩
    rw [w2 d hd, w1 d hd]
    by_cases hin : c + 1 ≤ d ∧ d - (c + 1) < bs.length
    · rw [dif_pos hin, dif_pos ⟨by omega, by simp only [List.length_cons]; omega⟩]
      simp only [show d - c = d - (c + 1) + 1 by omega, List.getElem_cons_succ]
    · rw [dif_neg hin]
      by_cases hdc : d = c
      · subst hdc
        rw [if_pos rfl, dif_pos ⟨by omega, by simp⟩]
        simp
      · rw [if_neg hdc, dif_neg (by simp only [List.length_cons]; omega)]

/-! ### The windows byte by byte -/

theorem accessFault_buffer {s : State} {off : Nat} {n : Width} (h0 : 0x100 ≤ off) (h : off < 0x1000)
    (hm : off % widthBytes n = 0) : accessFault s off n = none :=
  (accessFault_none_iff _ _ _).2 ⟨.inl h, hm, by omega⟩

/-- An aligned access that starts below a multiple of 8 ends below it. -/
theorem aligned_fits {off lim : Nat} {n : Width} (hm : off % widthBytes n = 0) (hl : lim % 8 = 0) (h : off < lim)
    {k : Nat} (hk : k < widthBytes n) : off + k < lim := by
  cases n <;> simp only [widthBytes] at * <;> omega

theorem readValue_zero {s : State} {off : Nat} {n : Width} (h : ∀ k, k < widthBytes n → byteAt s (off + k) = 0) :
    readValue s off n = 0 := by
  apply laneByte_ext_zero
  intro k hk
  rw [laneByte_readValue _ _ _ _ hk]
  split
  · exact h k ‹_›
  · rfl

theorem byteAt_in (s : State) {k : Nat} (h : k < 136) : byteAt s (0x200 + k) = blockByte s.inBuf k := by
  simp [byteAt, region_in s (off := 0x200 + k) (by omega) (by omega)]

theorem byteAt_out (s : State) {k : Nat} (h : k < 136) : byteAt s (0x300 + k) = blockByte s.outBuf k := by
  simp [byteAt, region_out s (off := 0x300 + k) (by omega) (by omega)]

/-- A byte of the STATE window that is not masked (R55, R56). -/
theorem byteAt_state (s : State) {c : Nat} (hc : c < 200) (hm : c < 136 ∨ s.phase = .idle) :
    byteAt s (0x100 + c) = windowByte s.lanes c := by
  unfold byteAt
  rw [region_state s (by omega) (by omega)]
  have hmask : capacityMasked s c = false := by
    rcases hm with h | h <;> simp [capacityMasked, h]
  simp [hmask, windowByte]

/-- The write of bytes to the aperture keeps DMEM canonical. -/
theorem writeBytesAt_wf (off : Nat) (bs : Bytes) (s : State) (h : Memory.wf (dmemBytes s) s.dmem = true) :
    Memory.wf (dmemBytes s) (writeBytesAt off bs s).dmem = true := by
  induction bs generalizing off s with
  | nil => exact h
  | cons b bs ih =>
    have hd : dmemBytes (writeByteAt off b s) = dmemBytes s := by rw [writeByteAt_frame]
    have : Memory.wf (dmemBytes s) (writeByteAt off b s).dmem = true := by
      cases hr : region s off with
      | dmemWin =>
        have e : writeByteAt off b s = dmemWrite (off - dmemBase) b s := by simp [writeByteAt, hr]
        rw [e]
        refine Memory.wf_insert ?_ h
        have : ¬0x1000000 + dmemBytes s ≤ off := by
          intro hc
          by_cases h2 : off < 0x2000000
          · rw [region_unmapped s (.inr ⟨hc, h2⟩)] at hr; cases hr
          · rw [region_outside s (by omega)] at hr; cases hr
        have : 0x1000000 ≤ off := by
          by_contra hc
          have : region s off ≠ .dmemWin := by
            unfold region dmemBase
            repeat' split
            all_goals first | (intro hx; cases hx; done) | omega
          exact this hr
        show off - 0x1000000 < _
        omega
      | stateWin =>
        have e : (writeByteAt off b s).dmem = s.dmem := by simp only [writeByteAt, hr]; split <;> rfl
        rw [e]; exact h
      | control | inWin | outWin | reserved | unmapped | outside =>
        have e : (writeByteAt off b s).dmem = s.dmem := by simp [writeByteAt, hr]
        rw [e]; exact h
    have := ih (off + 1) (writeByteAt off b s) (by rw [hd]; exact this)
    rwa [hd] at this

theorem byteAt_dmem (s : State) {a : Nat} (h : a < dmemBytes s) : byteAt s (0x1000000 + a) = dmemRead s a := by
  unfold byteAt
  rw [region_dmem s (by omega) (by omega)]
  exact congrArg (dmemRead s) (Nat.add_sub_cancel_left ..)

/-- A read as the sum of its bytes (R64). -/
theorem readValue_eq_sum {s : State} {off : Nat} {n : Width} {f : Nat → Byte}
    (h : ∀ k, k < widthBytes n → byteAt s (off + k) = f k) : readValue s off n =
      BitVec.ofNat 64 ((List.range (widthBytes n)).map fun k => (f k).toNat * 2 ^ (8 * k)).sum := by
  have hl : ((List.range (widthBytes n)).map fun k => byteAt s (off + k)).length = widthBytes n := by simp
  have hw : widthBytes n ≤ 8 := by cases n <;> decide
  have e := (leValue_toNat ((List.range (widthBytes n)).map fun k => byteAt s (off + k)) (by omega)).1
  rw [hl] at e
  have hv : readValue s off n =
      BitVec.ofNat 64 (leValue ((List.range (widthBytes n)).map fun k => byteAt s (off + k))).toNat := by
    simp [readValue]
  rw [hv, e]
  congr 2
  apply List.map_congr_left
  intro k hk
  have hk' : k < widthBytes n := by simpa using hk
  simp [hk', h k hk']

/-- What a write to the IN window does, byte by byte (R57, R64). -/
theorem writeBytesAt_in (bs : Bytes) {s : State} {c : Nat} (hc : c + bs.length ≤ 136) :
    writeBytesAt (0x200 + c) bs s = { s with inBuf := (writeBytesAt (0x200 + c) bs s).inBuf } ∧
      ∀ d, d < 136 → blockByte (writeBytesAt (0x200 + c) bs s).inBuf d =
        if h : c ≤ d ∧ d - c < bs.length then bs[d - c]'h.2 else blockByte s.inBuf d := by
  induction bs generalizing c s with
  | nil => exact ⟨rfl, fun d _ => by simp [writeBytesAt]⟩
  | cons b bs ih =>
    simp only [List.length_cons] at hc
    have e : writeByteAt (0x200 + c) b s = { s with inBuf := s.inBuf.setIfInBounds c b } := by
      simp [writeByteAt, region_in s (off := 0x200 + c) (by omega) (by omega)]
    obtain ⟨h1, h2⟩ := ih (s := writeByteAt (0x200 + c) b s) (c := c + 1) (by omega)
    have key : writeBytesAt (0x200 + c) (b :: bs) s =
        writeBytesAt (0x200 + (c + 1)) bs (writeByteAt (0x200 + c) b s) := rfl
    constructor
    · rw [key, h1, e]
    · intro d hd
      rw [key, h2 d hd, e]
      by_cases hdc : d = c
      · subst hdc
        simp [blockByte_setIfInBounds _ _ _ _ hd]
      · by_cases hin : c + 1 ≤ d ∧ d - (c + 1) < bs.length
        · rw [dif_pos hin, dif_pos (by simp; omega)]
          rw [List.getElem_cons, dif_neg (by omega)]
          congr 1
        · rw [dif_neg hin, dif_neg (by simp; omega), blockByte_setIfInBounds _ _ _ _ hd, if_neg hdc]

end Sys2Proof.Machine
end

