-- ==== Sys2Proof/Laws/Decode.lean ====
section
/-! SUPPORT. The decoder's fields and its inversion. -/

namespace Sys2Proof

theorem opcField_toNat (w : Word) : (opcField w).toNat = w.toNat % 256 := by
  simp [opcField, BitVec.extractLsb'_toNat]

theorem immField_toNat (w : Word) : (immField w).toNat = w.toNat / 256 % 256 := by
  simp [immField, BitVec.extractLsb'_toNat, Nat.shiftRight_eq_div_pow]

theorem rsvField_toNat (w : Word) : (rsvField w).toNat = w.toNat / 65536 := by
  have := w.isLt
  simp only [rsvField, BitVec.extractLsb'_toNat, Nat.shiftRight_eq_div_pow]
  omega

/-- A word is the three fields of its format (R90). -/
theorem word_toNat_fields (w : Word) :
    w.toNat = (opcField w).toNat + 256 * (immField w).toNat + 65536 * (rsvField w).toNat := by
  rw [opcField_toNat, immField_toNat, rsvField_toNat]
  omega

theorem encode_toNat (i : Instr) : (encode i).toNat = i.opc + 256 * i.immediate.toNat := by
  have h1 : i.opc < 256 := by cases i <;> simp [Instr.opc]
  have h2 := i.immediate.isLt
  simp only [encode, BitVec.toNat_ofNat]
  omega

theorem opcField_encode (i : Instr) : opcField (encode i) = BitVec.ofNat 8 i.opc := by
  have h1 : i.opc < 256 := by cases i <;> simp [Instr.opc]
  apply BitVec.eq_of_toNat_eq
  rw [opcField_toNat, encode_toNat, BitVec.toNat_ofNat]
  omega

theorem immField_encode (i : Instr) : immField (encode i) = i.immediate := by
  have h1 : i.opc < 256 := by cases i <;> simp [Instr.opc]
  have h2 := i.immediate.isLt
  apply BitVec.eq_of_toNat_eq
  rw [immField_toNat, encode_toNat]
  omega

theorem rsvField_encode (i : Instr) : rsvField (encode i) = 0 := by
  have h1 : i.opc < 256 := by cases i <;> simp [Instr.opc]
  have h2 := i.immediate.isLt
  apply BitVec.eq_of_toNat_eq
  rw [rsvField_toNat, encode_toNat]
  simp
  omega

/-- The opcode map sends a byte to an operation exactly when it is that operation's byte (R94). -/
theorem opcodeOf_eq_some (b : Byte) (op : Opcode) (m : Byte) (h : opcodeOf b = some op) :
    (buildInstr op m).opc = b.toNat := by
  simp only [opcodeOf, opcodeMap, List.lookup] at h
  repeat' split at h
  all_goals first
    | (cases h; rename_i hb; rw [eq_of_beq hb]; rfl)
    | cases h

theorem immediate_buildInstr (op : Opcode) (m : Byte) (h : takesImm op = false → m = 0) :
    (buildInstr op m).immediate = m := by
  cases op <;> simp [buildInstr, Instr.immediate, takesImm] at h ⊢ <;> exact h.symm

/-- What a decoded word is: the operation of its opcode, RSV = 0, and an immediate its operation admits (R95). -/
theorem decode_ok {w : Word} {i : Instr} (h : decode w = .ok i) :
    ∃ op, opcodeOf (opcField w) = some op ∧ rsvField w = 0 ∧ (takesImm op = false → immField w = 0) ∧
      (op = .final → (immField w).toNat ≤ 135) ∧ (op = .round ∨ op = .iota → (immField w).toNat ≤ 23) ∧
      i = buildInstr op (immField w) := by
  unfold decode at h
  split at h
  · cases h
  · rename_i op hop
    split at h
    · cases h
    · split at h
      · cases h
      · split at h
        · cases h
        · split at h
          · cases h
          · rename_i h1 h2 h3 h4
            refine ⟨op, hop, by simpa using h1, fun h => ?_, fun h => ?_, fun h => ?_, ?_⟩
            · by_contra hm
              exact h2 ⟨h, hm⟩
            · by_contra hm
              exact h3 ⟨h, by omega⟩
            · by_contra hm
              exact h4 ⟨h, by omega⟩
            · cases h
              rfl

/-- The decoder's only errors (R95). -/
theorem decode_error {w : Word} {e : ErrCode} (h : decode w = .error e) :
    opcodeOf (opcField w) = none ∧ e = .illegalOpcode ∨
      ∃ op, opcodeOf (opcField w) = some op ∧
        (e = .reservedBits ∨ op = .final ∧ e = .badLen ∨ (op = .round ∨ op = .iota) ∧ e = .badRound) := by
  unfold decode at h
  split at h
  · cases h
    exact .inl ⟨by assumption, rfl⟩
  · rename_i op hop
    refine .inr ⟨op, hop, ?_⟩
    split at h
    · cases h; exact .inl rfl
    · split at h
      · cases h; exact .inl rfl
      · split at h
        · rename_i h3
          cases h; exact .inr (.inl ⟨h3.1, rfl⟩)
        · split at h
          · rename_i h4
            cases h; exact .inr (.inr ⟨h4.1, rfl⟩)
          · cases h

/-- The decoder's errors are errors. -/
theorem decode_error_ne {w : Word} {e : ErrCode} (h : decode w = .error e) : e ≠ .noError := by
  rintro rfl
  unfold decode at h
  split at h
  · cases h
  · repeat' (split at h)
    all_goals cases h

end Sys2Proof
end

