-- ==== Sys2Proof/Laws/PerInstr.lean ====
section
/-! SUPPORT. One statement about every instruction as syntax, one lemma a constructor. -/

namespace Sys2Proof.Laws.EncodedFields

/-- The word of an instruction holds its opcode in bits 7:0, its immediate in bits 15:8 and 0 in bits 31:16
(30_encoding.md R92 to R94). -/
def Statement (i : Instr) : Prop :=
  opcField (encode i) = BitVec.ofNat 8 i.opc ∧ immField (encode i) = i.immediate ∧ rsvField (encode i) = 0

/-- The three fields of any encoding. -/
theorem fields (i : Instr) : Statement i := ⟨opcField_encode i, immField_encode i, rsvField_encode i⟩

theorem nop : Statement .nop := fields _
theorem clear : Statement .clear := fields _
theorem permute : Statement .permute := fields _
theorem round (r : Byte) : Statement (.round r) := fields _
theorem theta : Statement .theta := fields _
theorem rhopi : Statement .rhopi := fields _
theorem chi : Statement .chi := fields _
theorem iota (r : Byte) : Statement (.iota r) := fields _
theorem init : Statement .init := fields _
theorem absorb : Statement .absorb := fields _
theorem final (len : Byte) : Statement (.final len) := fields _
theorem squeeze : Statement .squeeze := fields _
theorem hash : Statement .hash := fields _
theorem pack : Statement .pack := fields _
theorem proofid : Statement .proofid := fields _

end Sys2Proof.Laws.EncodedFields
end

