-- ==== Sys2Proof/Laws/Permutation.lean ====
section
/-! SUPPORT. Each step of the permutation lane by lane, the rounds as a fold, and the sponge's blocks byte by byte. -/

namespace Sys2Proof.Machine

theorem lane_theta (A : Lanes) (i : Nat) (h : i < 25) : lane (theta A) i = lane A i ^^^ thetaEffect A (i % 5) :=
  lane_mkLanes _ _ h

theorem lane_rhoPi (A : Lanes) (j : Nat) (h : j < 25) :
    lane (rhoPi A) j = rotl64 (lane A (rhoPiSource j)) (rotationOffset (rhoPiSource j)) :=
  lane_mkLanes _ _ h

theorem lane_chi (B : Lanes) (i : Nat) (h : i < 25) : lane (chi B) i =
    lane B i ^^^ (~~~(lane B ((i % 5 + 1) % 5 + 5 * (i / 5))) &&& lane B ((i % 5 + 2) % 5 + 5 * (i / 5))) :=
  lane_mkLanes _ _ h

theorem lane_iota (A : Lanes) (r i : Nat) (h : i < 25) :
    lane (iota A r) i = if i = 0 then lane A 0 ^^^ roundConstant r else lane A i :=
  lane_mkLanes _ _ h

/-- Every rotation offset is 0 to 63 (R121). -/
theorem rotationOffset_lt : ∀ i, i < 25 → rotationOffset i < 64 := by decide

/-- The source of the lane that (x, y) goes to is (x, y) (R123). -/
theorem rhoPiSource_dest (x y : Nat) (hx : x < 5) (hy : y < 5) :
    rhoPiSource (y + 5 * ((2 * x + 3 * y) % 5)) = x + 5 * y := by
  interval_cases x <;> interval_cases y <;> rfl

theorem rounds_eq_foldl (n : Nat) (A : Lanes) : rounds n A = (List.range n).foldl keccakRound A := by
  induction n with
  | zero => rfl
  | succ n ih => rw [List.range_succ, List.foldl_append, ← ih]; rfl

theorem permute_eq_foldl (A : Lanes) : permute A = (List.range 24).foldl keccakRound A := by
  unfold permute
  exact rounds_eq_foldl 24 A

/-- The first l bytes of two buffers that agree on them. -/
theorem toList_take_congr {b c : Block} {l : Nat} (hl : l ≤ 136) (h : ∀ k, k < l → blockByte b k = blockByte c k) :
    b.toList.take l = c.toList.take l := by
  apply List.ext_getElem?
  intro k
  by_cases hk : k < l
  · rw [List.getElem?_take_of_lt hk, List.getElem?_take_of_lt hk, toList_getElem?_eq _ _ (by omega),
      toList_getElem?_eq _ _ (by omega), h k hk]
  · rw [List.getElem?_take_eq_none (by omega), List.getElem?_take_eq_none (by omega)]

/-! ### Padding and absorbing -/

theorem pad_length (q : Bytes) (h : q.length ≤ 135) : (pad q).length = 136 := by
  simp only [pad, xorByteAt, zeros, List.length_modify, List.length_append, List.length_replicate]
  show q.length + (136 - q.length) = 136
  omega

/-- The padded block byte by byte: the remainder, then 0 with 0x01 and 0x80 XORed in (R163). -/
theorem pad_getElem? (q : Bytes) (h : q.length ≤ 135) (k : Nat) (hk : k < 136) : (pad q)[k]? =
    some (((q.getD k 0) ^^^ (if k = q.length then 0x01 else 0)) ^^^ (if k = 135 then 0x80 else 0)) := by
  have hz : (q ++ zeros (136 - q.length))[k]? = some (q.getD k 0) := by
    by_cases hq : k < q.length
    · rw [List.getElem?_append_left hq, List.getElem?_eq_getElem hq, List.getD_eq_getElem _ _ hq]
    · rw [List.getElem?_append_right (by omega), List.getD_eq_default _ _ (by omega)]
      simp only [zeros, List.getElem?_replicate]
      rw [if_pos (by omega)]
  have hz' : (q ++ zeros (rateBytes - q.length))[k]? = some (q.getD k 0) := hz
  simp only [pad, xorByteAt, List.getElem?_modify, hz', Option.map_eq_map, Option.map_some]
  by_cases h1 : k = q.length
  · subst h1
    by_cases h2 : q.length = 135
    · simp [h2]
    · simp [h2, Ne.symm h2]
  · by_cases h2 : k = 135
    · subst h2; simp [h1, Ne.symm h1]
    · simp [h1, h2, Ne.symm h1, Ne.symm h2]

theorem absorbMessage_zero (A : Lanes) (m : Bytes) : absorbMessage 0 A m = absorbBlock A (pad m) := by
  unfold absorbMessage; rfl

theorem absorbMessage_succ (n : Nat) (A : Lanes) (m : Bytes) :
    absorbMessage (n + 1) A m = absorbMessage n (absorbBlock A (m.take 136)) (m.drop 136) := by
  rw [absorbMessage]

/-- Full blocks, then a remainder (R165). -/
theorem absorbMessage_blocks (blocks : List Bytes) (q : Bytes) (A : Lanes) (h : ∀ b ∈ blocks, b.length = 136) :
    absorbMessage blocks.length A (blocks.flatten ++ q) = absorbBlock (blocks.foldl absorbBlock A) (pad q) := by
  induction blocks generalizing A with
  | nil => simpa using absorbMessage_zero A q
  | cons b bs ih =>
    have hb : b.length = 136 := h b (by simp)
    rw [List.length_cons, absorbMessage_succ, List.flatten_cons, List.append_assoc, List.take_left' hb,
      List.drop_left' hb, ih _ fun c hc => h c (by simp [hc]), List.foldl_cons]

theorem flatten_length_of_blocks (blocks : List Bytes) (h : ∀ b ∈ blocks, b.length = 136) :
    blocks.flatten.length = 136 * blocks.length := by
  induction blocks with
  | nil => rfl
  | cons b bs ih =>
    rw [List.flatten_cons, List.length_append, h b (by simp), ih fun c hc => h c (by simp [hc]), List.length_cons]
    omega

/-- SpongeState of full blocks and a remainder (R165). -/
theorem spongeState_blocks (blocks : List Bytes) (q : Bytes) (h : ∀ b ∈ blocks, b.length = 136) (hq : q.length < 136) :
    spongeState (blocks.flatten ++ q) = absorbBlock (blocks.foldl absorbBlock zeroLanes) (pad q) := by
  have hl : (blocks.flatten ++ q).length / rateBytes = blocks.length := by
    rw [List.length_append, flatten_length_of_blocks blocks h]
    show (136 * blocks.length + q.length) / 136 = _
    omega
  unfold spongeState
  rw [hl, absorbMessage_blocks blocks q zeroLanes h]

end Sys2Proof.Machine
end

