-- ==== Sys2Proof/Laws/Step.lean ====
section
/-! SUPPORT. Whose turn it is, and everything one step can do. -/

namespace Sys2Proof.Machine

theorem step_of_reset {s : State} (h : s.env.resetReq = true) : step s = .next (platformReset s) := by
  simp [step, turn, h]

theorem step_of_engine {s : State} (hr : s.env.resetReq = false) (hb : s.busy = true)
    (hw : s.env.wait = 0 ∨ hostNext s = none) : step s = engineStep s := by
  simp [step, turn, hr, hb, hw]

theorem step_of_host {s : State} {st : HostStmt} (hr : s.env.resetReq = false) (hn : hostNext s = some st)
    (hb : s.busy = true → s.env.wait ≠ 0) : step s = hostExec st s := by
  cases hbb : s.busy with
  | false => simp [step, turn, hr, hbb, hn, hostStep]
  | true => simp [step, turn, hr, hbb, hn, hostStep, hb hbb]

theorem step_of_idle {s : State} (hr : s.env.resetReq = false) (hb : s.busy = false) (hn : hostNext s = none) :
    step s = .next s := by
  simp [step, turn, hr, hb, hn]

/-- Everything a step can do: a reset, the engine's step, a statement of the host, or nothing. -/
theorem step_cases (s : State) :
    s.env.resetReq = true ∧ step s = .next (platformReset s) ∨
    s.env.resetReq = false ∧ s.busy = true ∧ (s.env.wait = 0 ∨ hostNext s = none) ∧ step s = engineStep s ∨
    (∃ st, s.env.resetReq = false ∧ hostNext s = some st ∧ (s.busy = true → s.env.wait ≠ 0) ∧ step s = hostExec st s) ∨
    s.env.resetReq = false ∧ s.busy = false ∧ hostNext s = none ∧ step s = .next s := by
  cases hr : s.env.resetReq with
  | true => exact .inl ⟨rfl, step_of_reset hr⟩
  | false =>
    refine .inr ?_
    by_cases he : s.busy = true ∧ (s.env.wait = 0 ∨ hostNext s = none)
    · exact .inl ⟨rfl, he.1, he.2, step_of_engine hr he.1 he.2⟩
    · refine .inr ?_
      cases hn : hostNext s with
      | some st =>
        have hw : s.busy = true → s.env.wait ≠ 0 := fun hb h0 => he ⟨hb, .inl h0⟩
        exact .inl ⟨st, rfl, rfl, hw, step_of_host hr hn hw⟩
      | none =>
        have hb : s.busy = false := by
          cases hb : s.busy with
          | false => rfl
          | true => exact absurd ⟨hb, .inr hn⟩ he
        exact .inr ⟨rfl, hb, rfl, step_of_idle hr hb hn⟩

/-- Everything the engine's step can do. -/
theorem engineStep_cases (s : State) :
    (∃ i, decode s.cmd = .ok i ∧ engineStep s = exec i s) ∨
    ∃ e, decode s.cmd = .error e ∧ engineStep s = .next (raiseError e s) := by
  unfold engineStep
  cases h : decode s.cmd with
  | ok i => exact .inl ⟨i, rfl, rfl⟩
  | error e => exact .inr ⟨e, rfl, rfl⟩

/-- Everything a statement of the host can do when it answers a next state. -/
theorem hostExec_inversion {st : HostStmt} {s t : State} (h : hostExec st s = .next t) :
    (∃ n off v, st = .write n off v ∧ hostWrite off n v (passStatement s) = .ok t) ∨
    (∃ n off x v u, st = .read n off x ∧ hostRead off n (passStatement s) = .ok (v, u) ∧ t = setHostVar x v u) ∨
    t = passStatement s ∨ ∃ label, t = hostGoto label (passStatement s) := by
  cases st with
  | write n off v =>
    left
    simp only [hostExec] at h
    split at h
    · cases h
    · cases h; exact ⟨n, off, v, rfl, ‹_›⟩
  | read n off x =>
    right; left
    simp only [hostExec] at h
    split at h
    · cases h
    · cases h; exact ⟨n, off, x, _, _, rfl, ‹_›, rfl⟩
  | bnz x mask label =>
    right; right
    simp only [hostExec] at h
    split at h <;> cases h
    · exact .inr ⟨label, rfl⟩
    · exact .inl rfl
  | bz x mask label =>
    right; right
    simp only [hostExec] at h
    split at h <;> cases h
    · exact .inr ⟨label, rfl⟩
    · exact .inl rfl
  | expect e v =>
    right; right; left
    simp only [hostExec] at h
    split at h <;> cases h
    rfl

/-- Everything the write of a control register can do (R53). -/
theorem writeRegister_cases (off : Nat) (w : Word) (s : State) :
    off = 0x010 ∧ writeRegister off w s = drawLatency (accept w s) ∨
    off = 0x014 ∧ writeRegister off w s = writeStatus w s ∨
    off ≠ 0x010 ∧ off ≠ 0x014 ∧ ∃ a b c d e f g, writeRegister off w s =
      { s with srcAddr := a, srcLen := b, piAddr := c, piLen := d, pfAddr := e, pfLen := f, dstAddr := g } := by
  unfold writeRegister
  cases h : registerAt off with
  | none =>
    refine .inr (.inr ⟨?_, ?_, _, _, _, _, _, _, _, rfl⟩)
    · rintro rfl; cases h
    · rintro rfl; cases h
  | some r =>
    have ho := regOffset_of_registerAt h
    subst ho
    cases r
    case cmd => exact .inl ⟨rfl, rfl⟩
    case status => exact .inr (.inl ⟨rfl, rfl⟩)
    all_goals exact .inr (.inr ⟨by decide, by decide, _, _, _, _, _, _, _, rfl⟩)

/-- No step changes the parameters of the instance: BASE and DMEM_BYTES (00_scope.md R6, R7). -/
theorem step_parameters {s t : State} (h : step s = .next t) : t.base = s.base ∧ t.dmemSize = s.dmemSize := by
  rcases step_cases s with ⟨_, he⟩ | ⟨_, _, _, he⟩ | ⟨st, _, _, _, he⟩ | ⟨_, _, _, he⟩ <;> rw [he] at h
  · cases h; exact ⟨rfl, rfl⟩
  · rcases engineStep_cases s with ⟨i, _, hx⟩ | ⟨e, _, hx⟩ <;> rw [hx] at h
    · rcases exec_inversion h with ⟨e, _, _, rfl⟩ | ⟨_, rfl⟩
      · exact ⟨rfl, rfl⟩
      · cases i <;> simp [effect]
        rw [memWrite_frame]
        simp
    · cases h; exact ⟨rfl, rfl⟩
  · rcases hostExec_inversion h with ⟨n, off, v, _, hx⟩ | ⟨n, off, x, v, u, _, hx, rfl⟩ | rfl | ⟨l, rfl⟩
    · rcases (hostWrite_inversion hx).2 with ⟨_, rfl⟩ | ⟨_, _, _, rfl⟩ | ⟨_, _, rfl⟩
      · exact ⟨rfl, rfl⟩
      · rcases writeRegister_cases off (v.setWidth 32) (passStatement s) with
          ⟨_, hr⟩ | ⟨_, hr⟩ | ⟨_, _, _, _, _, _, _, _, _, hr⟩ <;> rw [hr]
        · simp
        · unfold writeStatus; split <;> exact ⟨rfl, rfl⟩
        · exact ⟨rfl, rfl⟩
      · rw [writeBytesAt_frame]; exact ⟨rfl, rfl⟩
    · rw [(hostRead_frame hx).1]; exact ⟨rfl, rfl⟩
    · exact ⟨rfl, rfl⟩
    · exact ⟨rfl, rfl⟩
  · cases h; exact ⟨rfl, rfl⟩

/-- One step, then the rest of the run. -/
theorem run_succ (M : Host.Core) (j : Nat) (s : M.State) : M.run (j + 1) s =
    match M.step s with
    | .next t => M.run j t
    | .fault r => .fault r
    | .refused r => .refused r := rfl

theorem run_next {j : Nat} {s t : State} (h : step s = .next t) : core.run (j + 1) s = core.run j t := by
  rw [run_succ core j s, show core.step s = .next t from h]

theorem run_fault {j : Nat} {s : State} {f : Fault} (h : step s = .fault f) : core.run (j + 1) s = .fault f := by
  rw [run_succ core j s, show core.step s = .fault f from h]

end Sys2Proof.Machine
end

