-- ==== Sys2Proof/Tests/Slice0.lean ====
section
/-! SUPPORT. Tests from 95_test_vectors.md, and a witness for every statement that has hypotheses. -/

namespace Sys2Proof.Tests

open Sys2Proof.Machine Sys2Proof.Slice0

/-! ### Builders -/

/-- The state a command leaves. -/
def after (i : Instr) (s : State) : State :=
  match exec i s with
  | .next t => t
  | .fault _ => s
  | .refused _ => s

/-- The value a host read answers. -/
def readOf (off : Nat) (n : Width) (s : State) : Option Lane :=
  match hostRead off n s with
  | .ok (v, _) => some v
  | .error _ => none

/-- The state a host write leaves. -/
def written (off : Nat) (n : Width) (v : Lane) (s : State) : State :=
  match hostWrite off n v s with
  | .ok t => t
  | .error _ => s

/-- Bytes from a hexadecimal number, the first byte most significant. -/
def bytesOf (v n : Nat) : Bytes := (List.range n).map fun k => BitVec.ofNat 8 (v >>> (8 * (n - 1 - k)))

/-- Reset, in a given PHASE. -/
def inPhase (p : Phase) : State := { State.reset with phase := p }

/-- Reset, with lanes given by a function of the index. -/
def withS (f : Nat → Lane) : State := { State.reset with lanes := mkLanes f }

/-- Reset, with a command word accepted and its step due. -/
def due (w : Word) : State := State.reset.withFetchWord 32 w.toNat

/-- Reset, with n zero bytes at the start of DMEM, and PI = (0, 32), PF = (0x20, 64). -/
def proofState (n : Nat) : State :=
  { State.reset with
    dmem := (List.range n).map fun a => (a, 0)
    piLen := 32, pfAddr := 0x20, pfLen := 64 }

/-! ### WellFormed smoke: each check refuses an ill-formed term -/

theorem test_wf_round_24 : (Instr.round 24).wf = false ∧ (Instr.round 23).wf = true := by decide
theorem test_wf_iota_24 : (Instr.iota 24).wf = false ∧ (Instr.iota 23).wf = true := by decide
theorem test_wf_final_136 : (Instr.final 136).wf = false ∧ (Instr.final 135).wf = true := by decide

/-! ### Words written out from the encoding, OPC in bits 7:0, IMM in bits 15:8 (30_encoding.md R90, R94) -/

theorem test_word_nop : decode 0b00000000000000000000000000000000 = .ok .nop := by rfl
theorem test_word_clear : decode 0b00000000000000000000000000000001 = .ok .clear := by rfl
theorem test_word_permute : decode 0b00000000000000000000000000010000 = .ok .permute := by rfl
theorem test_word_round_23 : decode 0b00000000000000000001011100010001 = .ok (.round 23) := by rfl
theorem test_word_theta : decode 0b00000000000000000000000000010010 = .ok .theta := by rfl
theorem test_word_rhopi : decode 0b00000000000000000000000000010011 = .ok .rhopi := by rfl
theorem test_word_chi : decode 0b00000000000000000000000000010100 = .ok .chi := by rfl
theorem test_word_iota_5 : decode 0b00000000000000000000010100010101 = .ok (.iota 5) := by rfl
theorem test_word_init : decode 0b00000000000000000000000000100000 = .ok .init := by rfl
theorem test_word_absorb : decode 0b00000000000000000000000000100001 = .ok .absorb := by rfl
theorem test_word_final_135 : decode 0b00000000000000001000011100100010 = .ok (.final 135) := by rfl
theorem test_word_squeeze : decode 0b00000000000000000000000000100011 = .ok .squeeze := by rfl
theorem test_word_hash : decode 0b00000000000000000000000000100100 = .ok .hash := by rfl
theorem test_word_pack : decode 0b00000000000000000000000000110000 = .ok .pack := by rfl
theorem test_word_proofid : decode 0b00000000000000000000000000110001 = .ok .proofid := by rfl

/-- The words of 95_test_vectors.md 2.5 that fail, each with its first failing check. -/
theorem test_words_refused :
    decode 0x00000100 = .error .reservedBits ∧ decode 0x00010000 = .error .reservedBits ∧
    decode 0x00000002 = .error .illegalOpcode ∧ decode 0x00000116 = .error .illegalOpcode ∧
    decode 0xFFFFFFFF = .error .illegalOpcode ∧ decode 0x0000FF25 = .error .illegalOpcode ∧
    decode 0x00008822 = .error .badLen ∧ decode 0x0000C822 = .error .badLen ∧
    decode 0x00010022 = .error .reservedBits ∧ decode 0x00001811 = .error .badRound ∧
    decode 0x0000FF15 = .error .badRound ∧ decode 0x00000130 = .error .reservedBits :=
  ⟨rfl, rfl, rfl, rfl, rfl, rfl, rfl, rfl, rfl, rfl, rfl, rfl⟩

theorem test_encode_words :
    encode (.final 3) = 0x00000322 ∧ encode (.round 1) = 0x00000111 ∧ encode .proofid = 0x00000031 := by decide

/-! ### Lane arithmetic (95_test_vectors.md 2.0) -/

theorem test_rotl64 : rotl64 0x8000000000000001 1 = 3 ∧ rotl64 1 63 = 0x8000000000000000 ∧
    rotl64 0x0123456789ABCDEF 4 = 0x123456789ABCDEF0 ∧ rotl64 0x0123456789ABCDEF 0 = 0x0123456789ABCDEF := by decide

theorem test_byte_order : le64 [0x61, 0x62, 0x63, 0x01, 0, 0, 0, 0] = 0x0000000001636261 ∧
    le64bytes 0xF1258F7940E1DDE7 = [0xE7, 0xDD, 0xE1, 0x40, 0x79, 0x8F, 0x25, 0xF1] ∧
    be32bytes 300 = [0x00, 0x00, 0x01, 0x2C] := by decide

/-! ### The permutation commands (95_test_vectors.md 2.1) -/

/-- The worked example of R122: 1 in column 1 and in lane 0, 2 in column 4, and 0 elsewhere. -/
theorem test_theta_one_lane : ∀ i, i < 25 →
    lane (after .theta (withS fun i => if i = 0 then 1 else 0)).lanes i =
      if i = 0 ∨ i % 5 = 1 then 1 else if i % 5 = 4 then 2 else 0 := by decide +kernel

theorem test_rhopi_all_ones :
    (after .rhopi (withS fun _ => 1)).lanes.toList =
      [0x0000000000000001, 0x0000100000000000, 0x0000080000000000, 0x0000000000200000, 0x0000000000004000,
        0x0000000010000000, 0x0000000000100000, 0x0000000000000008, 0x0000200000000000, 0x2000000000000000,
        0x0000000000000002, 0x0000000000000040, 0x0000000002000000, 0x0000000000000100, 0x0000000000040000,
        0x0000000008000000, 0x0000001000000000, 0x0000000000000400, 0x0000000000008000, 0x0100000000000000,
        0x4000000000000000, 0x0080000000000000, 0x0000008000000000, 0x0000020000000000, 0x0000000000000004] := by
  decide +kernel

theorem test_chi_row :
    (after .chi (withS fun i =>
      if i = 0 then 0xFFFFFFFFFFFFFFFF else if i = 2 then 0x00000000FFFFFFFF else 0)).lanes.toList.take 6 =
      [0xFFFFFFFF00000000, 0, 0x00000000FFFFFFFF, 0xFFFFFFFFFFFFFFFF, 0, 0] := by decide +kernel

theorem test_iota_23 : (after (.iota 23) State.reset).lanes.toList.take 2 = [0x8000000080008008, 0] := by decide +kernel

/-- Round(Round(0, 0), 1). -/
theorem test_round_1 :
    (after (.round 1) (withS fun i => if i = 0 then 1 else 0)).lanes.toList =
      [0x0000000000008083, 0x0000100000000000, 0x0000000000008000, 0x0000000000000001, 0x0000100000008000,
        0x0000000000000000, 0x0000200000200000, 0x0000000000000000, 0x0000200000000000, 0x0000000000200000,
        0x0000000000000002, 0x0000000000000200, 0x0000000000000000, 0x0000000000000202, 0x0000000000000000,
        0x0000000010000400, 0x0000000000000000, 0x0000000000000400, 0x0000000010000000, 0x0000000000000000,
        0x0000010000000000, 0x0000000000000000, 0x0000010000000004, 0x0000000000000000, 0x0000000000000004] := by
  decide +kernel

theorem test_round_24_is_bad_round : (after (.round 24) State.reset).errCode = .badRound := by decide

/-- Permute(0), lanes 0 to 3 and 24. -/
theorem test_permute_zero :
    let A := (after .permute State.reset).lanes.toList
    A.take 4 ++ A.drop 24 =
      [0xf1258f7940e1dde7, 0x84d5ccf933c0478a, 0xd598261ea65aa9ee, 0xbd1547306f80494d, 0xeaf1ff7b5ceca249] := by
  decide +kernel

/-! ### The control and sponge commands (95_test_vectors.md 2.2, 2.3) -/

theorem test_nop_only_clears_busy : (after .nop (due 0x0)).busy = false ∧ (after .nop (due 0x0)).phase = .idle := by decide

theorem test_clear_from_squeezed :
    let t := after .clear { inPhase .squeezed with blkCnt := 5, lanes := mkLanes fun _ => 7 }
    t.phase = .idle ∧ t.blkCnt = 0 ∧ lane t.lanes 24 = 0 := by decide +kernel

theorem test_init : (after .init { inPhase .squeezed with blkCnt := 5 }).phase = .absorbing := by decide

theorem test_pad_135_and_0 : (pad (zeros 135))[135]? = some 0x81 ∧ (pad [])[0]? = some 0x01 ∧
    (pad [])[135]? = some 0x80 ∧ (pad [0x61, 0x62, 0x63])[3]? = some 0x01 := by decide +kernel

theorem test_absorb_counts : (after .absorb (inPhase .absorbing)).blkCnt = 1 := by decide

theorem test_absorb_in_idle_is_phase_error :
    statusWord (after .absorb (due 0x21)) = 0x00000502 ∧ (after .absorb (due 0x21)).errCmd = 0x00000021 := by decide

/-- FINAL 3 with IN = "abc". -/
theorem test_final_abc :
    (after (.final 3) { inPhase .absorbing with
      inBuf := ((zeroBlock.setIfInBounds 0 0x61).setIfInBounds 1 0x62).setIfInBounds 2 0x63 }).outBuf.toList.take 32 =
      bytesOf 0x4e03657aea45a94fc7d47ba826c8d667c0d1e6e33a64a036ec44f58fa12d6c45 32 := by decide +kernel

theorem test_final_136_is_bad_len : (after (.final 136) (inPhase .idle)).errCode = .badLen := by decide

/-- HASH of nothing, then SQUEEZE: the second block of the stream of the empty message. -/
theorem test_hash_then_squeeze :
    let t := after .squeeze (after .hash State.reset)
    t.outBuf.toList.take 8 = [0x62, 0xcf, 0xbf, 0xbc, 0xbe, 0xdc, 0xe0, 0xae] ∧ t.blkCnt = 1 ∧ t.phase = .squeezed := by
  decide +kernel

/-- HASH of 137 zero bytes: two blocks. -/
theorem test_hash_137 :
    let t := after .hash { proofState 137 with srcLen := 137 }
    t.outBuf.toList.take 32 = bytesOf 0xbee7fbb405cb0d91a8775e338c4a5e4b5d6b2d051f687fa942043cffdc73bd28 32 ∧
      t.blkCnt = 2 := by
  decide +kernel

theorem test_hash_range : statusWord (after .hash { State.reset with srcAddr := 0xFFFFFFFF, srcLen := 1 }) = 0x00000702 := by
  decide

theorem test_hash_empty_at_the_end : (after .hash { State.reset with srcAddr := 0x10000 }).err = false := by decide

/-! ### The packer commands (95_test_vectors.md 2.4) -/

theorem test_pack_blob :
    let t := after .pack { proofState 96 with dstAddr := 0x60 }
    memRead t 0x60 5 = [0, 0, 0, 3, 0] ∧ t.fields = 3 ∧ t.blobLen = 100 ∧ dmemRead t 0xC3 = 0 := by decide +kernel

theorem test_pack_overlap : statusWord (after .pack { proofState 96 with dstAddr := 0x40 }) = 0x00000802 := by decide

theorem test_pack_format_before_range :
    (after .pack { State.reset with piLen := 33, dstAddr := 0xFFFFFFFF }).errCode = .format := by decide

theorem test_proofid :
    let t := after .proofid (proofState 96)
    t.outBuf.toList.take 32 = bytesOf 0x6d5e7697fa2e77a88a157569355e8b5673d92472f9b5a22bafc0b7d7b6684b2b 32 ∧
      t.blkCnt = 1 ∧ t.fields = 3 ∧ t.blobLen = 100 := by
  decide +kernel

theorem test_proofid_format : statusWord (after .proofid { inPhase .squeezed with pfLen := 33 }) = 0x0000060A := by decide

/-! ### The host interface (95_test_vectors.md 2.6) -/

theorem test_identification : readOf 0x000 .w4 State.reset = some 0x4343454B ∧
    readOf 0x004 .w4 State.reset = some 0x00010000 ∧ readOf 0x008 .w4 State.reset = some 0x00181110 := by decide +kernel

theorem test_bus_errors : readOf 0x000 .w1 State.reset = none ∧ readOf 0x102 .w4 State.reset = none ∧
    readOf 0x2000 .w4 State.reset = none ∧ readOf 0x1010000 .w4 State.reset = none := by decide +kernel

theorem test_state_window :
    let s := withS fun _ => 0xF1258F7940E1DDE7
    readOf 0x100 .w8 s = some 0xF1258F7940E1DDE7 ∧ readOf 0x104 .w4 s = some 0xF1258F79 ∧
      readOf 0x106 .w2 s = some 0xF125 ∧ readOf 0x107 .w1 s = some 0xF1 := by decide +kernel

theorem test_state_window_write :
    readOf 0x100 .w8 (written 0x104 .w4 0 (withS fun _ => 0xF1258F7940E1DDE7)) = some 0x40E1DDE7 := by decide +kernel

theorem test_capacity_mask : readOf 0x188 .w8 { withS (fun _ => 7) with phase := .squeezed } = some 0 ∧
    readOf 0x188 .w8 (withS fun _ => 7) = some 7 := by decide +kernel

theorem test_write_while_busy :
    (written 0x020 .w4 5 (due 0x10)).wdrop = true ∧ (written 0x020 .w4 5 (due 0x10)).srcAddr = 0 := by decide +kernel

theorem test_wdrop_clear :
    (written 0x014 .w4 0x10 { State.reset with wdrop := true }).wdrop = false ∧
      (written 0x014 .w4 0xFFFFFFEF { State.reset with wdrop := true }).wdrop = true := by decide +kernel

/-- SETREG PF_ADDR, 0x20 is W32 0x030, 0x20 (program P3), and BLOB_LEN stands at 0x040. -/
theorem test_setreg : pseudoSetreg .pfAddr 0x20 = [.write .w4 0x030 0x20] ∧ regOffset .blobLen = 0x040 := by decide

/-- A physical address in the second of two apertures (00_scope.md R7). -/
theorem test_route : routeAddress [State.resetAt 0x4000000, State.resetAt 0x8000000] 0x8000014 = some (1, 0x14) := by decide

/-- P6: with the outside's latency 1 the second write to CMD meets BUSY = 1, with latency 0 it does not. -/
theorem test_both_schedules :
    (written 0x010 .w4 0x10 { State.reset with env := { Env.initial with schedule := [1] } }).env.wait = 1 ∧
      (written 0x010 .w4 0x10 { State.reset with env := { Env.initial with schedule := [0] } }).env.wait = 0 := by
  decide +kernel

/-! ### Witnesses: for every statement with hypotheses, a state and operands that meet them, clause by clause -/

/-- Reset, with a host program of one statement. -/
def hosted (st : HostStmt) : State := { State.reset with env := { Env.initial with prog := [st] } }

/-- Reset, with the reset input asserted. -/
def resetting : State := { State.reset with env := { Env.initial with resetReq := true } }

theorem witness_DecodeOfEncode : ∀ i ∈ [Instr.nop, .round 0, .round 23, .iota 23, .final 0, .final 135, .proofid],
    i.wf = true := by decide

theorem witness_EncodeOfDecode : decode 0x00008722 = .ok (.final 135) ∧ decode 0x00001711 = .ok (.round 23) :=
  ⟨rfl, rfl⟩

theorem witness_DecodeChecksInOrder :
    (0x00000116 : Word).toNat % 256 ∉ assignedOpcodes ∧
    ((0x00010022 : Word).toNat % 256 ∈ assignedOpcodes ∧ (0x00010022 : Word).toNat / 65536 ≠ 0) ∧
    ((0x00000130 : Word).toNat % 256 ∈ assignedOpcodes ∧ (0x00000130 : Word).toNat / 65536 = 0 ∧
      (0x00000130 : Word).toNat % 256 ∉ [0x22, 0x11, 0x15] ∧ (0x00000130 : Word).toNat / 256 ≠ 0) ∧
    ((0x00008822 : Word).toNat / 65536 = 0 ∧ (0x00008822 : Word).toNat % 256 = 0x22 ∧
      135 < (0x00008822 : Word).toNat / 256) ∧
    ((0x00001815 : Word).toNat / 65536 = 0 ∧ (0x00001815 : Word).toNat % 256 ∈ [0x11, 0x15] ∧
      23 < (0x00001815 : Word).toNat / 256) ∧
    ((0x00008722 : Word).toNat % 256 ∈ assignedOpcodes ∧ (0x00008722 : Word).toNat / 65536 = 0 ∧
      ((0x00008722 : Word).toNat % 256 ∉ [0x22, 0x11, 0x15] → (0x00008722 : Word).toNat / 256 = 0) ∧
      ((0x00008722 : Word).toNat % 256 = 0x22 → (0x00008722 : Word).toNat / 256 ≤ 135) ∧
      ((0x00008722 : Word).toNat % 256 ∈ [0x11, 0x15] → (0x00008722 : Word).toNat / 256 ≤ 23)) := by
  decide

theorem witness_AcceptanceOfCommand : State.reset.busy = false ∧ (due 0x10).busy = true := by decide

/-- The engine's step with the wait over, with no statement left, and of a word that does not decode; a host step in IDLE
and one while a command is in flight. -/
theorem witness_StepRunsDecodedCommand :
    (EngineDue (due 0x8722) ∧ decode (due 0x8722).cmd = .ok (.final 135)) ∧
    (EngineDue { due 0x8822 with env := { Env.initial with wait := 3 } } ∧ decode (due 0x8822).cmd = .error .badLen) ∧
    HostDue (hosted (.expect (.const 0) 0)) (.expect (.const 0) 0) ∧
    HostDue { hosted (.expect (.const 0) 0) with
      busy := true, env := { Env.initial with prog := [.expect (.const 0) 0], wait := 1 } } (.expect (.const 0) 0) := by
  refine ⟨⟨⟨rfl, rfl, .inl rfl⟩, rfl⟩, ⟨⟨rfl, rfl, .inr rfl⟩, rfl⟩, ⟨rfl, rfl, ?_⟩, ⟨rfl, rfl, ?_⟩⟩ <;> decide

/-- What `Runs` and `Refuses` ask of a state. -/
theorem witness_DueWords : (EngineDue (due 0x8722) ∧ (due 0x8722).cmd = 0x8722) ∧
    EngineDue (due 0x10030) ∧ (due 0x10030).cmd = 0x10030 :=
  ⟨⟨⟨rfl, rfl, .inl rfl⟩, rfl⟩, ⟨rfl, rfl, .inl rfl⟩, rfl⟩

theorem witness_ErrorsByCommand : (∃ t, EngineDue (due 0x8822) ∧ (due 0x8822).errCode = .noError ∧
      step (due 0x8822) = .next t ∧ t.errCode = .badLen) ∧
    ∃ t, EngineDue (due 0x21) ∧ (due 0x21).errCode = .noError ∧ step (due 0x21) = .next t ∧ t.errCode = .phase :=
  ⟨⟨_, ⟨rfl, rfl, .inl rfl⟩, rfl, rfl, rfl⟩, _, ⟨rfl, rfl, .inl rfl⟩, rfl, rfl, rfl⟩

theorem witness_CommandsLeaveInputsAlone : (∃ t, exec .hash (proofState 96) = .next t) ∧
    (∃ t, exec .pack { proofState 96 with dstAddr := 0x60 } = .next t) ∧ ∃ t, exec .absorb State.reset = .next t := by
  refine ⟨?_, ?_, ?_⟩
  · exact ⟨_, exec_of_ready .hash (proofState 96) (by unfold ready; decide)⟩
  · exact ⟨_, exec_of_ready .pack { proofState 96 with dstAddr := 0x60 } (by unfold ready; decide)⟩
  · exact ⟨_, rfl⟩

theorem witness_WritersOfPhaseAndCounts :
    (∃ t, exec .clear (inPhase .squeezed) = .next t ∧ t.phase ≠ (inPhase .squeezed).phase) ∧
    (∃ t, exec .absorb (inPhase .absorbing) = .next t ∧ t.blkCnt = 1) ∧
    ∃ t, exec .proofid (proofState 96) = .next t ∧ t.fields = 3 := by
  refine ⟨⟨_, rfl, by decide⟩, ⟨_, exec_of_ready .absorb (inPhase .absorbing) rfl, rfl⟩,
    ⟨_, exec_of_ready .proofid (proofState 96) (by unfold ready; decide), rfl⟩⟩

theorem witness_CmdLatchWrittenByAcceptance :
    (∃ t, step (hosted (.write .w4 0x010 0x21)) = .next t ∧ t.cmd = 0x21 ∧ t.busy = true) ∧
    (∃ t, step { resetting with cmd := 0x21 } = .next t ∧ t.cmd = 0) ∧
    ∃ t, step (hosted (.write .w4 0x020 0x21)) = .next t ∧ t.cmd = 0 := by
  refine ⟨⟨_, rfl, ?_, ?_⟩, ⟨_, rfl, rfl⟩, ⟨_, rfl, rfl⟩⟩ <;> decide

theorem witness_CommandInFlightCompletes : (due 0x10).env.resetReq = false ∧ (due 0x10).busy = true := by decide

/-- For every opcode, what the statements NopCompletes to ProofidCompletes ask of a word: the opcode alone, and the opcode
with a bit above it. -/
theorem witness_Immediates : ∀ o ∈ assignedOpcodes,
    opcField (BitVec.ofNat 32 o) = BitVec.ofNat 8 o ∧ (BitVec.ofNat 32 o).extractLsb' 8 24 = 0 ∧
    opcField (BitVec.ofNat 32 (o + 65536)) = BitVec.ofNat 8 o ∧ (BitVec.ofNat 32 (o + 65536)).extractLsb' 16 16 ≠ 0 ∧
    (BitVec.ofNat 32 (o + 65536)).extractLsb' 8 24 ≠ 0 := by
  decide +kernel

/-- The immediates of ROUND, IOTA and FINAL at the boundary of their range. -/
theorem witness_ImmediateRanges :
    opcField 0x00001811 = 0x11 ∧ 23 < ((0x00001811 : Word).extractLsb' 8 8).toNat ∧
    opcField 0x00001715 = 0x15 ∧ ((0x00001715 : Word).extractLsb' 8 8).toNat ≤ 23 ∧
    opcField 0x00008722 = 0x22 ∧ ((0x00008722 : Word).extractLsb' 8 8).toNat ≤ 135 ∧
    135 < ((0x00008822 : Word).extractLsb' 8 8).toNat := by decide

theorem witness_ClearCompletes : 0x100 ≤ 0x1C0 ∧ 0x1C0 < 0x1C8 ∧ 0x1C0 % widthBytes .w8 = 0 ∧ 0x1C7 % widthBytes .w1 = 0 := by
  decide

/-- RoundCompletes, IotaCompletes and StepCommandsComposeToRound: round indices at the boundary of their range. -/
theorem witness_RoundIndices : (23 : Byte).toNat ≤ 23 ∧ 23 < (24 : Byte).toNat ∧ 23 < (255 : Byte).toNat := by decide

theorem witness_ThetaCompletes : ∀ x, x < 5 →
    parity (withS fun i => if i = 0 ∨ i = 5 then 9 else 0).lanes x = 0 := by decide +kernel

theorem witness_RhopiCompletes : rhoPi (withS fun _ => 1).lanes = rhoPi (withS fun _ => 1).lanes := rfl

theorem witness_ChiCompletes :
    (∀ x, x < 5 → lane (withS fun i => if 20 ≤ i then BitVec.allOnes 64 else 0).lanes (x + 5 * 4) = BitVec.allOnes 64) ∧
    (∀ z, z < 5 → z ≠ 4 → lane (withS fun i => if i = 4 then 0xFF else 0).lanes (z + 5 * 0) = 0) := by
  decide +kernel

/-- AbsorbCompletes, FinalCompletes, SqueezeCompletes: a PHASE for each clause. -/
theorem witness_Phases : (inPhase .absorbing).phase = .absorbing ∧ (inPhase .squeezed).phase ≠ .absorbing ∧
    (inPhase .squeezed).phase = .squeezed ∧ (inPhase .idle).phase ≠ .squeezed := by decide

/-- FINAL at the boundary of its length, and a buffer that differs from IN only from L on. -/
theorem witness_FinalCompletes : (135 : Byte).toNat ≤ 135 ∧ 135 < (136 : Byte).toNat ∧
    ∀ k, k < (135 : Byte).toNat → blockByte (zeroBlock.setIfInBounds 135 0xAA) k = blockByte (inPhase .absorbing).inBuf k := by
  decide +kernel

theorem witness_HashCompletes :
    let s := { State.reset with srcAddr := 0xFFFF, srcLen := 1 }
    let t := { State.reset with srcAddr := 0xFFFF, srcLen := 2 }
    s.srcAddr.toNat + s.srcLen.toNat ≤ dmemBytes s ∧ dmemBytes t < t.srcAddr.toNat + t.srcLen.toNat := by decide

/-- PACK: a bad length; a destination that ends one byte above DMEM; one that takes in the last proof byte; one that ends at
the end of DMEM. -/
theorem witness_PackCompletes :
    let bad := { proofState 96 with pfLen := 33 }
    let high := { proofState 96 with dstAddr := 0xFF9D }
    let meets := { proofState 96 with dstAddr := 0x5F }
    let good := { proofState 96 with dstAddr := 0xFF9C }
    formatOk bad = false ∧ (formatOk high = true ∧ destInRange high = false) ∧
    (formatOk meets = true ∧ sourcesInRange meets = true ∧ destInRange meets = true ∧ destOverlaps meets = true) ∧
    formatOk good = true ∧ sourcesInRange good = true ∧ destInRange good = true ∧ destOverlaps good = false := by
  decide

theorem witness_ProofidCompletes :
    let bad := { proofState 96 with piLen := 31 }
    let high := { proofState 96 with pfAddr := 0xFFC1 }
    let good := { proofState 96 with pfAddr := 0xFFC0 }
    formatOk bad = false ∧ (formatOk high = true ∧ sourcesInRange high = false) ∧
    formatOk good = true ∧ sourcesInRange good = true := by decide

theorem witness_BlockBytesBecomeLanes : (zeros 136).length = 136 ∧ 135 < 136 ∧ 16 < 17 := by decide +kernel

theorem witness_PaddedBlockBytes : ([] : Bytes).length ≤ 135 ∧ (zeros 134).length < 135 ∧ (zeros 135).length = 135 ∧
    (zeros 133).length < 134 ∧ 134 < 135 := by decide +kernel

theorem witness_SqueezeViewIsTheRate : ∀ i, i < 17 →
    lane (mkLanes fun i => if i < 17 then 0 else 5) i = lane zeroLanes i := by decide +kernel

theorem witness_SpongeStateOfMessage : (∀ b ∈ [zeros 136, zeros 136], b.length = 136) ∧ (zeros 135).length < 136 := by
  decide +kernel

/-- A message of 137 bytes: one block and one byte. -/
theorem witness_StreamingEqualsHashing :
    let h := { proofState 137 with srcLen := 137 }
    (1 : Byte).toNat ≤ 135 ∧ h.srcAddr.toNat + h.srcLen.toNat ≤ dmemBytes h ∧
    h.srcLen.toNat = 136 * [zeroBlock].length + (1 : Byte).toNat ∧
    ∀ k, k < h.srcLen.toNat →
      dmemRead h (h.srcAddr.toNat + k) = blockByte ([zeroBlock].getD (k / 136) zeroBlock) (k % 136) := by
  decide +kernel

theorem witness_SqueezesYieldTheStream :
    let s := { inPhase .squeezed with outBuf := squeezeBytes State.reset.lanes }
    s.phase = .squeezed ∧ s.busy = false ∧ s.outBuf = squeezeBytes s.lanes := ⟨rfl, rfl, rfl⟩

theorem witness_ProofBlobLayout : packProofBlob (zeros 33) (zeros 64) = none ∧
    (∃ blob, packProofBlob (zeros 32) (zeros 64) = some blob) ∧ ∃ blob, packProofBlob [] [] = some blob := by
  refine ⟨by decide, ⟨_, rfl⟩, ⟨_, rfl⟩⟩

theorem witness_FieldCountAlwaysFits :
    let s := { State.reset with piLen := 0x10000 }
    formatOk s = true ∧ sourcesInRange s = true := by decide

theorem witness_HashOfPackedBlobIsProofid :
    ∃ t, (due 0x30).err = false ∧ exec .pack (due 0x30) = .next t ∧ t.err = false := ⟨_, rfl, rfl, rfl⟩

/-- Outside the aperture; illegal by map, by width in the control region, by alignment; legal at the ends of the regions. -/
theorem witness_BusErrorsExactly : 0x2000000 ≤ 0x2000000 ∧
    ¬Legal State.reset 0x1000 .w1 ∧ ¬Legal State.reset 0x1010000 .w1 ∧ ¬Legal State.reset 0x0FF .w1 ∧
    ¬Legal State.reset 0x102 .w4 ∧ ¬Legal State.reset 0x1FFFFFF .w1 ∧
    Legal State.reset 0x0FC .w4 ∧ Legal State.reset 0x100 .w8 ∧ Legal State.reset 0xFFF .w1 ∧
    Legal State.reset 0x1000000 .w8 ∧ Legal State.reset 0x100FFFF .w1 := by
  unfold Legal Mapped
  refine ⟨?_, ?_, ?_, ?_, ?_, ?_, ?_, ?_, ?_, ?_, ?_⟩ <;> decide

theorem witness_ReadsChangeNothing : (∃ v t, hostRead 0x300 .w8 (due 0x10) = .ok (v, t)) ∧
    ∃ v t, hostRead 0x300 .w8 State.reset = .ok (v, t) ∧ State.reset.busy = false :=
  ⟨⟨_, _, rfl⟩, _, _, rfl, rfl⟩

theorem witness_WritesWhileBusyAreDropped : (due 0x10).busy = true ∧ Legal (due 0x10) 0x100FFF8 .w8 ∧
    Legal (due 0x10) 0x014 .w4 := by
  unfold Legal Mapped
  decide

theorem witness_WdropIsSticky :
    (∃ t, step { hosted (.write .w4 0x014 0x10) with wdrop := true } = .next t ∧ t.wdrop = false) ∧
    (∃ t, step { resetting with wdrop := true } = .next t ∧ t.wdrop = false) ∧
    ∃ t, step { due 0x01 with wdrop := true } = .next t ∧ t.wdrop = true :=
  ⟨⟨_, rfl, rfl⟩, ⟨_, rfl, rfl⟩, ⟨_, rfl, rfl⟩⟩

theorem witness_DefinedReadsWhileBusy : (due 0x10).busy = true ∧ (due 0x10).err = false ∧ (due 0x10).errCode = .noError ∧
    135 < 136 ∧ 128 % widthBytes .w8 = 0 ∧ 135 % widthBytes .w1 = 0 ∧ (∀ off ∈ [0x1C8, 0x1FF, 0x288, 0x2FF, 0x388, 0xFFF],
      (0x1C8 ≤ off ∧ off < 0x200 ∨ 0x288 ≤ off ∧ off < 0x300 ∨ 0x388 ≤ off ∧ off < 0x1000)) := by decide

/-- ControlRegistersRead and ControlRegistersWrite; the reserved offsets are those of DefinedReadsWhileBusy too. -/
theorem witness_ControlRegisters : State.reset.busy = false ∧
    ∀ off ∈ [0x00C, 0x044, 0x0FC], off % 4 = 0 ∧ (off = 0x00C ∨ 0x044 ≤ off ∧ off ≤ 0x0FC) := by decide

theorem witness_ReservedOffsetsInert : State.reset.busy = false ∧ 0x1F8 % widthBytes .w8 = 0 ∧ 0xFFF % widthBytes .w1 = 0 ∧
    0x288 % widthBytes .w8 = 0 ∧ 0x2FE % widthBytes .w2 = 0 ∧ 0x388 % widthBytes .w8 = 0 ∧ 0x1C8 % widthBytes .w4 = 0 := by
  decide

theorem witness_InAndOutWindows : State.reset.busy = false ∧ 135 < 136 ∧ 128 % widthBytes .w8 = 0 ∧
    132 % widthBytes .w4 = 0 ∧ 134 % widthBytes .w2 = 0 ∧ 135 % widthBytes .w1 = 0 := by
  decide

/-- StateWindowLanes and StateWindowBytes: the last rate lane and byte, and the last capacity lane and byte in IDLE. -/
theorem witness_StateWindow : State.reset.busy = false ∧ (inPhase .squeezed).busy = false ∧
    (16 < 17 ∨ (inPhase .squeezed).phase = .idle) ∧ (24 < 17 ∨ State.reset.phase = .idle) ∧
    (135 < 136 ∨ (inPhase .squeezed).phase = .idle) ∧ (199 < 136 ∨ State.reset.phase = .idle) ∧ 132 % widthBytes .w4 = 0 ∧
    192 % widthBytes .w8 = 0 ∧ 198 % widthBytes .w2 = 0 ∧ 199 % widthBytes .w1 = 0 := by decide

theorem witness_CapacityIsMasked : (inPhase .squeezed).busy = false ∧ (inPhase .squeezed).phase ≠ .idle ∧
    (inPhase .absorbing).phase ≠ .idle ∧ 0x188 % widthBytes .w8 = 0 ∧ 0x1C7 % widthBytes .w1 = 0 ∧
    ∀ i, i < 17 → lane (mkLanes fun i => if i < 17 then 0 else 5) i = lane (inPhase .squeezed).lanes i := by decide +kernel

theorem witness_DmemWindowIsLittleEndian : State.reset.busy = false ∧ 0xFFF8 < dmemBytes State.reset ∧
    0xFFF8 % widthBytes .w8 = 0 ∧ 0xFFFF < dmemBytes State.reset ∧ 0xFFFF % widthBytes .w1 = 0 := by decide

theorem witness_ResetAndIdleSteps : resetting.env.resetReq = true ∧ State.reset.env.resetReq = false ∧
    State.reset.busy = false ∧ hostNext State.reset = none := by decide

/-- A command in flight, with the engine's step due. -/
theorem witness_StepKeepsInvariant : Inv (due 0x8822) ∧ ∃ t, step (due 0x8822) = .next t := by
  refine ⟨⟨rfl, fun _ => rfl, ?_, ?_, fun _ => rfl, fun _ => rfl, .inl ⟨rfl, rfl⟩, rfl⟩, _, rfl⟩ <;> decide

/-- Two instances whose apertures meet end to end. -/
theorem witness_InstancesShareNothing :
    let p := [State.resetAt 0, { due 0x01 with base := 0x2000000 }]
    (∃ q, platformStep p 1 = .next q) ∧ p[1]? = some { due 0x01 with base := 0x2000000 } ∧ Platform.wf p = true :=
  ⟨⟨_, rfl⟩, rfl, by decide⟩

/-- A write and a read that answer, and one of each that is a bus error. -/
theorem witness_HostStatements :
    (∃ u, hostWrite 0x024 .w4 5 (passStatement State.reset) = .ok u) ∧
    hostWrite 0x1000 .w1 5 (passStatement State.reset) = .error (.busError 0x1000 1) ∧
    (∃ x u, hostRead 0x387 .w1 (passStatement State.reset) = .ok (x, u)) ∧
    hostRead 0x102 .w4 (passStatement State.reset) = .error (.busError 0x102 4) :=
  ⟨⟨_, rfl⟩, rfl, ⟨_, _, rfl⟩, rfl⟩

end Sys2Proof.Tests
end

section
/-! SUPPORT. A step of one engine of a platform (60_exceptions.md R243), and O59. -/

namespace Sys2Proof.Machine

/-- The apertures at two BASE values have no address in common (20_memory.md R51). -/
def BasesApart (a b : Nat) : Prop := a + 0x2000000 ≤ b ∨ b + 0x2000000 ≤ a

theorem aperturesApart_iff (s t : State) : aperturesApart s t = true ↔ BasesApart s.base t.base := by
  simp [aperturesApart, BasesApart]

/-- A platform is well formed by its BASE values alone. -/
theorem Platform.wf_iff_pairwise_bases (p : List State) :
    Platform.wf p = true ↔ (p.map State.base).Pairwise BasesApart := by
  induction p with
  | nil => simp [Platform.wf]
  | cons s rest ih => simp [Platform.wf, ih, aperturesApart_iff]

/-- All that a platform's step can do: nothing where there is no k-th engine, else that engine's own step. -/
theorem platformStep_inversion {p q : List State} {k : Nat} (h : platformStep p k = .next q) :
    (p[k]? = none ∧ q = p) ∨ ∃ s t, p[k]? = some s ∧ step s = .next t ∧ q = p.set k t := by
  unfold platformStep at h
  split at h
  · next hk =>
    cases h
    exact .inl ⟨hk, rfl⟩
  · next s hk =>
    split at h
    · next t hs =>
      cases h
      exact .inr ⟨s, t, hk, hs, rfl⟩
    · cases h
    · cases h

/-- A state with the old one's BASE, put in its place, leaves the platform's list of BASE values as it was. -/
theorem map_base_set {p : List State} {k : Nat} {s t : State} (hk : p[k]? = some s) (hb : t.base = s.base) :
    (p.set k t).map State.base = p.map State.base := by
  obtain ⟨hlt, rfl⟩ := List.getElem?_eq_some_iff.mp hk
  rw [List.map_set, hb, ← List.getElem_map State.base (h := by simpa using hlt), List.set_getElem_self]

/-- Settles O59: the step replaces the k-th state by one with the same BASE (`step_parameters`), and the apertures'
being apart is a matter of the BASE values alone. -/
theorem instancesShareNothing : Obligations.InstancesShareNothing := by
  intro p q k h
  rcases platformStep_inversion h with ⟨hk, rfl⟩ | ⟨s, t, hk, hs, rfl⟩
  · exact ⟨rfl, fun _ _ => rfl, fun s hs => by simp [hk] at hs, id⟩
  · have hb : t.base = s.base := (step_parameters hs).1
    refine ⟨List.length_set, fun j hj => List.getElem?_set_ne hj.symm, fun s' hs' => ?_, fun hwf => ?_⟩
    · obtain rfl : s = s' := Option.some.inj (hk.symm.trans hs')
      obtain ⟨hlt, -⟩ := List.getElem?_eq_some_iff.mp hk
      exact ⟨t, hs, List.getElem?_set_self hlt, hb⟩
    · rw [Platform.wf_iff_pairwise_bases] at hwf ⊢
      rwa [map_base_set hk hb]

end Sys2Proof.Machine
end

section
/-! SUPPORT. What an error, a completion and each command's effect leave, with O9 and O10. -/

namespace Sys2Proof.Machine

/-- PACK's effect as a plain update: DMEM, FIELDS and BLOB_LEN (43_packer.md R206, 10_state.md R34). -/
theorem effect_pack (s : State) : effect .pack s =
    { s with
      dmem := (memWrite s.dstAddr.toNat (blobOf s) s).dmem
      fields := BitVec.ofNat 32 (s.piLen.toNat / 32 + s.pfLen.toNat / 32)
      blobLen := BitVec.ofNat 32 (blobLength s) } := by
  rw [effect, memWrite_frame]
  rfl

/-- An effect writes S, PHASE, OUT, BLKCNT, FIELDS, BLOB_LEN and DMEM, and nothing else. -/
theorem effect_frame (i : Instr) (s : State) : effect i s =
    { s with
      lanes := (effect i s).lanes, phase := (effect i s).phase, outBuf := (effect i s).outBuf
      blkCnt := (effect i s).blkCnt, fields := (effect i s).fields, blobLen := (effect i s).blobLen
      dmem := (effect i s).dmem } := by
  cases i
  case pack => rw [effect_pack]
  all_goals rfl

/-- Only PACK writes DMEM. -/
theorem effect_dmem {i : Instr} (h : i ≠ .pack) (s : State) : (effect i s).dmem = s.dmem := by
  cases i
  case pack => exact absurd rfl h
  all_goals rfl

theorem effect_phase_cases (i : Instr) (s : State) :
    (effect i s).phase = s.phase ∨ i = .clear ∧ (effect i s).phase = .idle ∨
      i = .init ∧ (effect i s).phase = .absorbing ∨
      ((∃ l, i = .final l) ∨ i = .hash ∨ i = .proofid) ∧ (effect i s).phase = .squeezed := by
  cases i
  case clear => exact .inr (.inl ⟨rfl, rfl⟩)
  case init => exact .inr (.inr (.inl ⟨rfl, rfl⟩))
  case final l => exact .inr (.inr (.inr ⟨.inl ⟨l, rfl⟩, rfl⟩))
  case hash => exact .inr (.inr (.inr ⟨.inr (.inl rfl), rfl⟩))
  case proofid => exact .inr (.inr (.inr ⟨.inr (.inr rfl), rfl⟩))
  case pack => rw [effect_pack]; exact .inl rfl
  all_goals exact .inl rfl

theorem effect_blkCnt_cases (i : Instr) (s : State) :
    (effect i s).blkCnt = s.blkCnt ∨ (i = .clear ∨ i = .init) ∧ (effect i s).blkCnt = 0 ∨
      (i = .absorb ∨ ∃ l, i = .final l) ∧ (effect i s).blkCnt = s.blkCnt + 1 ∨
      i = .hash ∧ (effect i s).blkCnt = blockCount s.srcLen.toNat ∨
      i = .proofid ∧ (effect i s).blkCnt = blockCount (blobLength s) := by
  cases i
  case clear => exact .inr (.inl ⟨.inl rfl, rfl⟩)
  case init => exact .inr (.inl ⟨.inr rfl, rfl⟩)
  case absorb => exact .inr (.inr (.inl ⟨.inl rfl, rfl⟩))
  case final l => exact .inr (.inr (.inl ⟨.inr ⟨l, rfl⟩, rfl⟩))
  case hash => exact .inr (.inr (.inr (.inl ⟨rfl, by simp [effect]⟩)))
  case proofid => exact .inr (.inr (.inr (.inr ⟨rfl, by simp [effect]⟩)))
  case pack => rw [effect_pack]; exact .inl rfl
  all_goals exact .inl rfl

theorem effect_blob_cases (i : Instr) (s : State) :
    (effect i s).fields = s.fields ∧ (effect i s).blobLen = s.blobLen ∨
      (i = .pack ∨ i = .proofid) ∧
        (effect i s).fields = BitVec.ofNat 32 (s.piLen.toNat / 32 + s.pfLen.toNat / 32) ∧
        (effect i s).blobLen = BitVec.ofNat 32 (blobLength s) := by
  cases i
  case pack => rw [effect_pack]; exact .inr ⟨.inl rfl, rfl, rfl⟩
  case proofid => exact .inr ⟨.inr rfl, rfl, rfl⟩
  all_goals exact .inl ⟨rfl, rfl⟩

/-- Settles O9: an error writes no input, and an effect has the frame `effect_frame`. -/
theorem commandsLeaveInputsAlone : Obligations.CommandsLeaveInputsAlone := by
  intro i s t h
  rcases exec_inversion h with ⟨e, -, -, rfl⟩ | ⟨-, rfl⟩
  · simp [dmemRead_congr (t := raiseError e s) (s := s) rfl rfl rfl]
  · rw [effect_frame]
    refine ⟨rfl, rfl, rfl, rfl, rfl, rfl, rfl, rfl, rfl, rfl, rfl, rfl, rfl, rfl, fun hi => ?_⟩
    have hd := effect_dmem hi s
    exact ⟨hd, dmemRead_congr hd rfl rfl⟩

/-- Settles O10: an error writes none of the four, and an effect writes what the three `effect_…_cases` say. -/
theorem writersOfPhaseAndCounts : Obligations.WritersOfPhaseAndCounts := by
  intro i s t h
  rcases exec_inversion h with ⟨e, -, -, rfl⟩ | ⟨-, rfl⟩
  · exact ⟨.inl rfl, .inl rfl, .inl ⟨rfl, rfl⟩⟩
  · exact ⟨effect_phase_cases i s, effect_blkCnt_cases i s, effect_blob_cases i s⟩

end Sys2Proof.Machine
end

section
/-! SUPPORT. The invariant under every operation a step is made of, and O58. -/

namespace Sys2Proof.Machine

variable {s t : State}

/-! ### The engine -/

theorem inv_platformReset (h : Inv s) : Inv (platformReset s) where
  memory := rfl
  inFlight := nofun
  errAgrees := by simp [platformReset, State.reset]
  errCmd := nofun
  outZero _ := rfl
  idleCount _ := rfl
  blob := .inl ⟨rfl, rfl⟩
  hostVars := h.hostVars

theorem inv_complete (h : Inv s) : Inv (complete s) := { h with inFlight := nofun }

theorem inv_raiseError {e : ErrCode} (he : e ≠ .noError) (h : Inv s) : Inv (raiseError e s) :=
  { h with
    inFlight := nofun
    errAgrees := iff_of_true rfl he
    errCmd := fun _ => rfl }

/-- S may hold anything. -/
theorem inv_lanes (A : Lanes) (h : Inv s) : Inv { s with lanes := A } := { h with }

theorem inv_startPhase (p : Phase) (h : Inv s) : Inv (startPhase p s) :=
  { h with outZero := fun _ => rfl, idleCount := fun _ => rfl }

/-- A block may be counted outside IDLE. -/
theorem inv_absorbInto (b : Bytes) (hp : s.phase ≠ .idle) (h : Inv s) : Inv (absorbInto b s) :=
  { h with idleCount := fun hi => absurd hi hp }

/-- In SQUEEZED, OUT and BLKCNT may hold anything. -/
theorem inv_of_squeezed (A : Lanes) (o : Block) (n : Word) (h : Inv s) :
    Inv { s with lanes := A, outBuf := o, blkCnt := n, phase := .squeezed } :=
  { h with outZero := fun hp => absurd rfl hp, idleCount := nofun }

/-- FIELDS and BLOB_LEN of operands that pass FORMAT and RANGE: neither value wraps (10_state.md R34). -/
theorem blobLen_eq_of_checks (hf : formatOk s = true) (hr : sourcesInRange s = true) :
    (BitVec.ofNat 32 (blobLength s)).toNat =
      4 + 32 * (BitVec.ofNat 32 (s.piLen.toNat / 32 + s.pfLen.toNat / 32)).toNat := by
  rw [formatOk_iff] at hf
  rw [sourcesInRange_iff] at hr
  have hd := dmemBytes_le s
  simp only [BitVec.toNat_ofNat, blobLength]
  omega

theorem inv_recordBlob (hf : formatOk s = true) (hr : sourcesInRange s = true) (h : Inv s) : Inv (recordBlob s) :=
  { h with blob := .inr (blobLen_eq_of_checks hf hr) }

/-- A command whose checks pass keeps the invariant: PHASE lets ABSORB, FINAL and SQUEEZE count and write OUT, and the
range checks keep PACK inside DMEM. -/
theorem inv_effect {i : Instr} (hr : ready i s) (h : Inv s) : Inv (effect i s) := by
  cases i with
  | nop => exact h
  | clear | init => exact inv_startPhase _ h
  | permute | round | theta | rhopi | chi | iota => exact inv_lanes _ h
  | absorb =>
    have hp : s.phase = .absorbing := hr
    exact inv_absorbInto _ (by simp [hp]) h
  | final | hash => exact inv_of_squeezed (s := s) _ _ _ h
  | squeeze =>
    have hp : s.phase = .squeezed := hr
    exact { h with outZero := fun hn => absurd hp hn }
  | pack =>
    obtain ⟨hf, hsrc, hdst, -⟩ := hr
    rw [effect_pack]
    exact { h with
      memory := memWrite_wf _ _ _ _ (by rw [blobOf_length]; exact (destInRange_iff s).1 hdst) h.memory
      blob := .inr (blobLen_eq_of_checks hf hsrc) }
  | proofid =>
    obtain ⟨hf, hsrc⟩ := hr
    exact inv_recordBlob (s := finishHash _ s) hf hsrc (inv_of_squeezed _ _ _ h)

theorem noError_not_mem_commandErrors (i : Instr) : ErrCode.noError ∉ commandErrors i := by
  cases i <;> simp [commandErrors]

theorem inv_exec {i : Instr} (hx : exec i s = .next t) (h : Inv s) : Inv t := by
  rcases exec_inversion hx with ⟨e, he, -, rfl⟩ | ⟨hr, rfl⟩
  · exact inv_raiseError (ne_of_mem_of_not_mem he (noError_not_mem_commandErrors i)) h
  · exact inv_complete (inv_effect hr h)

theorem inv_engineStep (hx : engineStep s = .next t) (h : Inv s) : Inv t := by
  rcases engineStep_cases s with ⟨i, -, he⟩ | ⟨e, hd, he⟩ <;> rw [he] at hx
  · exact inv_exec hx h
  · cases hx
    exact inv_raiseError (decode_error_ne hd) h

/-! ### The host -/

/-- Acceptance clears the error fields, so the new CMD latch contradicts nothing (40_control.md R110). -/
theorem inv_accept (w : Word) (h : Inv s) : Inv (accept w s) :=
  { h with
    inFlight := fun _ => rfl
    errAgrees := iff_of_false nofun (not_not_intro rfl)
    errCmd := nofun }

theorem inv_drawLatency (h : Inv s) : Inv (drawLatency s) := by
  rw [drawLatency_frame]
  exact { h with }

theorem inv_writeRegister (off : Nat) (w : Word) (h : Inv s) : Inv (writeRegister off w s) := by
  rcases writeRegister_cases off w s with ⟨-, hw⟩ | ⟨-, hw⟩ | ⟨-, -, _, _, _, _, _, _, _, hw⟩ <;> rw [hw]
  · exact inv_drawLatency (inv_accept w h)
  · unfold writeStatus
    split
    · exact { h with }
    · exact h
  · exact { h with }

theorem inv_writeBytesAt (off : Nat) (bs : Bytes) (h : Inv s) : Inv (writeBytesAt off bs s) := by
  have hm := writeBytesAt_wf off bs s h.memory
  rw [writeBytesAt_frame]
  exact { h with memory := hm }

theorem inv_hostWrite {off : Nat} {n : Width} {v : Lane} (hx : hostWrite off n v s = .ok t) (h : Inv s) : Inv t := by
  rcases (hostWrite_inversion hx).2 with ⟨-, rfl⟩ | ⟨-, -, -, rfl⟩ | ⟨-, -, rfl⟩
  · exact { h with }
  · exact inv_writeRegister off _ h
  · exact inv_writeBytesAt off _ h

theorem inv_hostRead {off : Nat} {n : Width} {v : Lane} (hx : hostRead off n s = .ok (v, t)) (h : Inv s) : Inv t := by
  rw [(hostRead_frame hx).1]
  exact { h with }

theorem inv_passStatement (h : Inv s) : Inv (passStatement s) := { h with }

theorem inv_setHostVar (k : Nat) (v : Lane) (h : Inv s) : Inv (setHostVar k v s) :=
  { h with hostVars := cellsFrom_insert k v _ 0 (Nat.zero_le k) h.hostVars }

theorem inv_hostExec {st : HostStmt} (hx : hostExec st s = .next t) (h : Inv s) : Inv t := by
  have hpass := inv_passStatement h
  rcases hostExec_inversion hx with ⟨n, off, v, -, hw⟩ | ⟨n, off, k, v, u, -, hr, rfl⟩ | rfl | ⟨label, rfl⟩
  · exact inv_hostWrite hw hpass
  · exact inv_setHostVar k v (inv_hostRead hr hpass)
  · exact hpass
  · exact { hpass with }

/-- Settles O58: each of the four kinds of step keeps the invariant. -/
theorem stepKeepsInvariant : Obligations.StepKeepsInvariant := by
  intro s t h hs
  rcases step_cases s with ⟨-, he⟩ | ⟨-, -, -, he⟩ | ⟨st, -, -, -, he⟩ | ⟨-, -, -, he⟩ <;> rw [he] at hs
  · cases hs
    exact inv_platformReset h
  · exact inv_engineStep hs h
  · exact inv_hostExec hs h
  · cases hs
    exact h

end Sys2Proof.Machine
end

section
/-! SUPPORT. What a step can do to the CMD latch and to WDROP, with O11 and O44. -/

namespace Sys2Proof.Machine

/-- The effect of a host write on the CMD latch and on WDROP: neither changes, but that a dropped write sets WDROP; or a
command is accepted (40_control.md R110); or a write of 1 to STATUS[4] clears WDROP (10_state.md R30). -/
theorem hostWrite_cmd_wdrop {s t : State} {off : Nat} {n : Width} {v : Lane} (h : hostWrite off n v s = .ok t) :
    t.cmd = s.cmd ∧ (s.wdrop = true → t.wdrop = true) ∨
    s.busy = false ∧ n = .w4 ∧ off = 0x010 ∧ t.cmd = v.setWidth 32 ∧ t.busy = true ∧ t.wdrop = s.wdrop ∨
    s.busy = false ∧ n = .w4 ∧ off = 0x014 ∧ v.getLsbD 4 = true ∧ t.cmd = s.cmd := by
  rcases (hostWrite_inversion h).2 with ⟨-, rfl⟩ | ⟨hb, -, rfl, rfl⟩ | ⟨-, -, rfl⟩
  · exact .inl ⟨rfl, fun _ => rfl⟩
  · rcases writeRegister_cases off (v.setWidth 32) s with ⟨ho, hw⟩ | ⟨ho, hw⟩ | ⟨-, -, _, _, _, _, _, _, _, hw⟩ <;> rw [hw]
    · exact .inr (.inl ⟨hb, rfl, ho, by simp⟩)
    · by_cases h4 : v.getLsbD 4 = true
      · exact .inr (.inr ⟨hb, rfl, ho, h4, by unfold writeStatus; split <;> rfl⟩)
      · rw [writeStatus, if_neg (by simpa using h4)]
        exact .inl ⟨rfl, id⟩
    · exact .inl ⟨rfl, id⟩
  · rw [writeBytesAt_frame]
    exact .inl ⟨rfl, id⟩

/-- A statement of the host other than a write touches neither the CMD latch nor WDROP. -/
theorem hostExec_cmd_wdrop {st : HostStmt} {s t : State} (h : hostExec st s = .next t) :
    t.cmd = s.cmd ∧ t.wdrop = s.wdrop ∨
      ∃ n off v, st = .write n off v ∧ hostWrite off n v (passStatement s) = .ok t := by
  rcases hostExec_inversion h with hw | ⟨n, off, k, v, u, -, hr, rfl⟩ | rfl | ⟨label, rfl⟩
  · exact .inr hw
  · rw [(hostRead_frame hr).1]
    exact .inl ⟨rfl, rfl⟩
  · exact .inl ⟨rfl, rfl⟩
  · exact .inl ⟨rfl, rfl⟩

/-- The engine's step writes neither the CMD latch nor WDROP. -/
theorem engineStep_cmd_wdrop {s t : State} (h : engineStep s = .next t) : t.cmd = s.cmd ∧ t.wdrop = s.wdrop := by
  rcases engineStep_cases s with ⟨i, -, he⟩ | ⟨e, -, he⟩ <;> rw [he] at h
  · obtain ⟨-, hcmd, hwdrop, -⟩ := commandsLeaveInputsAlone i s t h
    exact ⟨hcmd, hwdrop⟩
  · cases h
    exact ⟨rfl, rfl⟩

/-- The effect of a step on the CMD latch and on WDROP: none but a dropped write's, a reset's, or that of a host write
to CMD or to STATUS while BUSY = 0. -/
theorem step_cmd_wdrop {s t : State} (h : step s = .next t) :
    t.cmd = s.cmd ∧ (s.wdrop = true → t.wdrop = true) ∨
    s.env.resetReq = true ∧ t.cmd = 0 ∨
    (∃ v : Lane, hostNext s = some (.write .w4 0x010 v) ∧ s.busy = false ∧ t.cmd = v.setWidth 32 ∧ t.busy = true ∧
      t.wdrop = s.wdrop) ∨
    ∃ v : Lane, hostNext s = some (.write .w4 0x014 v) ∧ s.busy = false ∧ v.getLsbD 4 = true ∧ t.cmd = s.cmd := by
  rcases step_cases s with ⟨hr, he⟩ | ⟨-, -, -, he⟩ | ⟨st, -, hn, -, he⟩ | ⟨-, -, -, he⟩ <;> rw [he] at h
  · cases h
    exact .inr (.inl ⟨hr, rfl⟩)
  · obtain ⟨hcmd, hwdrop⟩ := engineStep_cmd_wdrop h
    exact .inl ⟨hcmd, fun hw => hwdrop.trans hw⟩
  · rcases hostExec_cmd_wdrop h with ⟨hcmd, hwdrop⟩ | ⟨n, off, v, rfl, hx⟩
    · exact .inl ⟨hcmd, fun hw => hwdrop.trans hw⟩
    · rcases hostWrite_cmd_wdrop hx with hkeep | ⟨hb, rfl, rfl, hacc⟩ | ⟨hb, rfl, rfl, hclr⟩
      · exact .inl hkeep
      · exact .inr (.inr (.inl ⟨v, hn, hb, hacc⟩))
      · exact .inr (.inr (.inr ⟨v, hn, hb, hclr⟩))
  · cases h
    exact .inl ⟨rfl, id⟩

/-- Settles O11: of the outcomes in `step_cmd_wdrop`, only a reset and an acceptance change the CMD latch. -/
theorem cmdLatchWrittenByAcceptance : Obligations.CmdLatchWrittenByAcceptance := by
  intro s t h
  rcases step_cmd_wdrop h with ⟨hcmd, -⟩ | hreset | ⟨v, hn, hb, hcmd, hbusy, -⟩ | ⟨v, -, -, -, hcmd⟩
  · exact .inl hcmd
  · exact .inr (.inl hreset)
  · exact .inr (.inr ⟨v, hn, hb, hcmd, hbusy⟩)
  · exact .inl hcmd

/-- Settles O44: of the outcomes in `step_cmd_wdrop`, only a reset and a write of 1 to STATUS[4] can clear WDROP. -/
theorem wdropIsSticky : Obligations.WdropIsSticky := by
  intro s t hw h
  rcases step_cmd_wdrop h with ⟨-, hkeep⟩ | ⟨hr, -⟩ | ⟨v, -, -, -, -, hwdrop⟩ | ⟨v, hn, hb, h4, -⟩
  · exact .inl (hkeep hw)
  · exact .inr (.inl hr)
  · exact .inl (hwdrop.trans hw)
  · exact .inr (.inr ⟨v, hn, hb, h4⟩)

end Sys2Proof.Machine
end

section
/-! SUPPORT. The capacity mask (20_memory.md R56), and O53. -/

namespace Sys2Proof.Machine

/-- A masked capacity byte reads 0 (R56). -/
theorem byteAt_masked {s : State} {off : Nat} (h : 0x188 ≤ off) (h' : off < 0x1C8) (hp : s.phase ≠ .idle) :
    byteAt s off = 0 := by
  unfold byteAt
  rw [region_state s (by omega) h']
  have hmask : capacityMasked s (off - 0x100) = true := by
    simp [capacityMasked, hp]
    omega
  simp [hmask]

theorem bounds_of_region_state {s : State} {off : Nat} (h : region s off = .stateWin) : 0x100 ≤ off ∧ off < 0x1C8 := by
  unfold region at h
  split_ifs at h
  omega

/-- Outside IDLE a byte of the aperture depends on S through its rate lanes alone (R56). -/
theorem byteAt_congr_rate {s : State} {A : Lanes} (hp : s.phase ≠ .idle)
    (hA : ∀ i, i < 17 → lane A i = lane s.lanes i) (off : Nat) : byteAt { s with lanes := A } off = byteAt s off := by
  by_cases hw : 0x100 ≤ off ∧ off < 0x1C8
  · obtain ⟨hlo, hhi⟩ := hw
    by_cases hc : off < 0x188
    · obtain ⟨c, rfl⟩ := Nat.exists_eq_add_of_le hlo
      rw [byteAt_state _ (by omega) (.inl (by omega)), byteAt_state _ (by omega) (.inl (by omega)), windowByte, windowByte,
        hA _ (by omega)]
    · rw [byteAt_masked (by omega) hhi hp, byteAt_masked (s := { s with lanes := A }) (by omega) hhi hp]
  · have hr : region { s with lanes := A } off = region s off := region_congr rfl off
    simp only [byteAt, hr]
    cases hreg : region s off
    case stateWin => exact absurd (bounds_of_region_state hreg) hw
    all_goals rfl

theorem readValue_congr_rate {s : State} {A : Lanes} (hp : s.phase ≠ .idle)
    (hA : ∀ i, i < 17 → lane A i = lane s.lanes i) (off : Nat) (n : Width) :
    readValue { s with lanes := A } off n = readValue s off n := by
  simp only [readValue, byteAt_congr_rate hp hA]

/-- A read of two states that differ only in S answers alike once the values defined by R64 agree: whether the access
is legal, and what it draws while BUSY = 1, is no matter of S. -/
theorem hostRead_fst_congr_lanes {s : State} {A : Lanes} {off : Nat} {n : Width}
    (hv : readValue { s with lanes := A } off n = readValue s off n) :
    (hostRead off n { s with lanes := A }).map Prod.fst = (hostRead off n s).map Prod.fst := by
  have hf : accessFault { s with lanes := A } off n = accessFault s off n := accessFault_congr rfl off n
  have hr : region { s with lanes := A } off = region s off := region_congr rfl off
  have hu : busyUnspecified { s with lanes := A } off = busyUnspecified s off := by simp only [busyUnspecified, hr]
  unfold hostRead
  rw [hf, hu, hv]
  cases accessFault s off n with
  | some f => rfl
  | none => dsimp only; split_ifs <;> rfl

/-- Settles O53: a masked byte reads 0 and ignores a write, and every other byte of the aperture is no byte of the
capacity. -/
theorem capacityIsMasked : Obligations.CapacityIsMasked := by
  refine ⟨fun s off n v hb hp hlo hhi hal => ?_, fun s A hp hA off n => ?_⟩
  · have hf : accessFault s off n = none := accessFault_buffer (by omega) (by omega) hal
    have hfit : ∀ k, k < widthBytes n → off + k < 0x1C8 := fun k hk => aligned_fits hal rfl hhi hk
    constructor
    · rw [hostRead_idle hf hb, readValue_zero fun k hk => byteAt_masked (by omega) (hfit k hk) hp]
    · rw [hostWrite_window v hf (by omega) hb, writeBytesAt_inert]
      intro k b hk
      exact writeByteAt_masked b (by omega) (hfit k (by simpa [leBytes] using hk)) hp
  · exact hostRead_fst_congr_lanes (readValue_congr_rate hp hA off n)

end Sys2Proof.Machine
end

section
/-! SUPPORT. Which accesses answer and which are bus errors (20_memory.md R51, R52, R61 to R63), with O41, O42 and
O43. -/

namespace Sys2Proof.Machine

open Sys2Proof.Slice0

variable {s : State} {off : Nat} {n : Width}

theorem legal_iff_accessFault : Legal s off n ↔ accessFault s off n = none := (accessFault_none_iff s off n).symm

theorem not_legal_of_outside (h : 0x2000000 ≤ off) : ¬Legal s off n := by
  have hd := dmemBytes_le s
  rintro ⟨hmap, -, -⟩
  unfold Mapped at hmap
  omega

theorem hostRead_fault {f : Fault} (h : accessFault s off n = some f) : hostRead off n s = .error f := by
  simp [hostRead, h]

theorem hostWrite_fault {f : Fault} (v : Lane) (h : accessFault s off n = some f) : hostWrite off n v s = .error f := by
  simp [hostWrite, h]

/-- Reads and writes that are not legal end with the same fault (R61, R62). -/
theorem hostAccess_of_not_legal (v : Lane) (h : ¬Legal s off n) :
    hostRead off n s = .error (if 0x2000000 ≤ off then .outsideAperture off else .busError off (widthBytes n)) ∧
      hostWrite off n v s =
        .error (if 0x2000000 ≤ off then .outsideAperture off else .busError off (widthBytes n)) := by
  rw [legal_iff_accessFault] at h
  obtain ⟨f, hf⟩ := Option.ne_none_iff_exists'.mp h
  rw [← accessFault_some hf]
  exact ⟨hostRead_fault hf, hostWrite_fault v hf⟩

theorem hostRead_answers (h : accessFault s off n = none) : ∃ x t, hostRead off n s = .ok (x, t) := by
  unfold hostRead
  rw [h]
  dsimp only
  split_ifs <;> exact ⟨_, _, rfl⟩

theorem hostWrite_answers (v : Lane) (h : accessFault s off n = none) : ∃ t, hostWrite off n v s = .ok t := by
  cases hb : s.busy with
  | true => exact ⟨_, hostWrite_busy v h hb⟩
  | false =>
    by_cases ho : off < 0x100
    · obtain ⟨-, hal, hw⟩ := legal_iff_accessFault.2 h
      obtain rfl := hw ho
      exact ⟨_, hostWrite_control v ho hal hb⟩
    · exact ⟨_, hostWrite_window v h (by omega) hb⟩

/-- Settles O41: the one fault of an access that is not legal is `hostAccess_of_not_legal`, and no access outside the
aperture is legal. -/
theorem busErrorsExactly : Obligations.BusErrorsExactly := by
  refine fun s off n v => ⟨fun ho => ?_, fun ho hl => ?_, fun hl => ?_⟩
  · simpa only [if_pos ho] using hostAccess_of_not_legal v (not_legal_of_outside (s := s) (n := n) ho)
  · simpa only [if_neg (Nat.not_le.2 ho)] using hostAccess_of_not_legal v hl
  · rw [legal_iff_accessFault] at hl
    exact ⟨hostRead_answers hl, hostWrite_answers v hl⟩

/-- Settles O42: it is the frame of a read, `hostRead_frame`. -/
theorem readsChangeNothing : Obligations.ReadsChangeNothing := fun _ _ _ _ _ h => hostRead_frame h

/-- Settles O43: a legal access has no fault, and `hostWrite_busy` says what the write then does. -/
theorem writesWhileBusyAreDropped : Obligations.WritesWhileBusyAreDropped := fun _ _ _ v hb hl =>
  hostWrite_busy v (legal_iff_accessFault.1 hl) hb

end Sys2Proof.Machine
end

section
/-! SUPPORT. The fields of STATUS and the register map, read and written (20_memory.md R53, R54), with O46, O47 and
O48. -/

namespace Sys2Proof.Machine

/-! ### The fields of STATUS

`statusWith` is a 32-bit word made of fields; the proofs `change` its width to the sum of theirs, in which the library
states the bits of an append. -/

theorem getLsbD_flagBit (b : Bool) (i : Nat) : (flagBit b).getLsbD i = (decide (i = 0) && b) := by
  cases b <;> simp [flagBit]

/-- Bits 7:0 of STATUS (R53). -/
theorem getLsbD_statusWith_low (p : BitVec 2) (s : State) {i : Nat} (hi : i < 8) : (statusWith p s).getLsbD i =
    if i = 0 then s.busy else if i = 1 then s.err else if i < 4 then p.getLsbD (i - 2)
    else if i = 4 then s.wdrop else false := by
  unfold statusWith
  change BitVec.getLsbD (w := 16 + 8 + 3 + 1 + 2 + 1 + 1) _ i = _
  simp only [BitVec.getLsbD_append, getLsbD_flagBit]
  interval_cases i <;> simp

/-- Bits 31:8 of STATUS: ERRCODE, zero-extended (R53). -/
theorem getLsbD_statusWith_high (p : BitVec 2) (s : State) (j : Nat) :
    (statusWith p s).getLsbD (j + 8) = (errCodeByte s.errCode).getLsbD j := by
  unfold statusWith
  change BitVec.getLsbD (w := 16 + 8 + 3 + 1 + 2 + 1 + 1) _ (j + 8) = _
  simp only [BitVec.getLsbD_append]
  simpa using BitVec.lt_of_getLsbD

theorem statusWith_phaseField (p : BitVec 2) (s : State) : (statusWith p s).extractLsb' 2 2 = p := by
  apply BitVec.eq_of_getLsbD_eq
  intro i hi
  rw [BitVec.getLsbD_extractLsb', getLsbD_statusWith_low p s (by omega)]
  interval_cases i <;> rfl

theorem statusWith_reservedField (p : BitVec 2) (s : State) : (statusWith p s).extractLsb' 5 3 = 0 := by
  apply BitVec.eq_of_getLsbD_eq
  intro i hi
  rw [BitVec.getLsbD_extractLsb', getLsbD_statusWith_low p s (by omega)]
  interval_cases i <;> rfl

theorem statusWith_extract_high (p : BitVec 2) (s : State) (i n : Nat) :
    (statusWith p s).extractLsb' (i + 8) n = (errCodeByte s.errCode).extractLsb' i n := by
  apply BitVec.eq_of_getLsbD_eq
  intro j hj
  rw [BitVec.getLsbD_extractLsb', BitVec.getLsbD_extractLsb', Nat.add_right_comm, getLsbD_statusWith_high]

/-- Settles O47, field by field. -/
theorem statusFields : Obligations.StatusFields := by
  refine fun s => ⟨getLsbD_statusWith_low _ s (by decide), getLsbD_statusWith_low _ s (by decide), ?_,
    getLsbD_statusWith_low _ s (by decide), statusWith_reservedField _ s, ?_, ?_⟩
  · exact (statusWith_phaseField _ s).trans (by cases s.phase <;> rfl)
  · exact (statusWith_extract_high _ s 0 8).trans (by cases s.errCode <;> rfl)
  · exact (statusWith_extract_high _ s 8 16).trans (by cases s.errCode <;> rfl)

/-! ### Reads of the control region -/

variable {s : State}

/-- CONFIG, zero-extended: its fields do not overlap (10_state.md R35). -/
theorem configWord_setWidth (s : State) :
    (configWord s).setWidth 64 = BitVec.ofNat 64 (s.dmemSize.log2 + 17 * 256 + 24 * 65536) := by
  have hstep := s.dmemSize.step.isLt
  apply BitVec.eq_of_toNat_eq
  simp only [configWord, Config.DmemSize.log2, BitVec.toNat_setWidth, BitVec.toNat_ofNat]
  omega

theorem accessFault_control (s : State) {off : Nat} (h : off < 0x100) (hal : off % 4 = 0) :
    accessFault s off .w4 = none :=
  (accessFault_none_iff s off .w4).2 ⟨.inl (by omega), hal, fun _ => rfl⟩

theorem accessFault_register (s : State) (r : RegName) : accessFault s (regOffset r) .w4 = none :=
  accessFault_control s (regOffset_lt r).1 (regOffset_lt r).2

theorem readValue_register (s : State) (r : RegName) :
    readValue s (regOffset r) .w4 = (registerValue s r).setWidth 64 := by
  rw [readValue_control s _ (regOffset_lt r).1 (regOffset_lt r).2, readRegister_regOffset]

/-- While BUSY = 0 every control register reads its value (R53). -/
theorem hostRead_register (r : RegName) (hb : s.busy = false) :
    hostRead (regOffset r) .w4 s = .ok ((registerValue s r).setWidth 64, s) := by
  rw [hostRead_idle (accessFault_register s r) hb, readValue_register]

/-- The registers a command in flight may be writing, and STATUS, whose PHASE field it may be (R70). -/
def busyRegisters : List RegName := [.status, .errCmd, .blkCnt, .fields, .blobLen]

theorem busyUnspecified_control (s : State) {off : Nat} (h : off < 0x100) :
    busyUnspecified s off = decide (off = 0x018 ∨ off = 0x01C ∨ off = 0x03C ∨ off = 0x040) := by
  rw [busyUnspecified, region_control s h]

/-- Every other register reads its value while BUSY = 1 too (R70). -/
theorem hostRead_register_defined {r : RegName} (hr : r ∉ busyRegisters) :
    hostRead (regOffset r) .w4 s = .ok ((registerValue s r).setWidth 64, s) := by
  have ho : regOffset r ≠ 0x014 := by
    cases r <;> simp [busyRegisters, regOffset] at hr ⊢
  have hu : busyUnspecified s (regOffset r) = false := by
    rw [busyUnspecified_control s (regOffset_lt r).1]
    cases r <;> simp [busyRegisters, regOffset] at hr ⊢
  rw [hostRead_busy_defined (accessFault_register s r) ho hu, readValue_register]

/-- A reserved control offset reads 0, whatever BUSY is (R54, R70). -/
theorem hostRead_reserved_control {off : Nat} (hal : off % 4 = 0)
    (ho : off = 0x00C ∨ 0x044 ≤ off ∧ off ≤ 0x0FC) : hostRead off .w4 s = .ok (0, s) := by
  have hlt : off < 0x100 := by omega
  have hu : busyUnspecified s off = false := by
    rw [busyUnspecified_control s hlt]
    simp only [decide_eq_false_iff_not]
    omega
  rw [hostRead_busy_defined (accessFault_control s hlt hal) (by omega) hu, readValue_control s off hlt hal,
    readRegister_reserved s (by omega)]
  rfl

/-- Settles O46: `hostRead_register` for each of the sixteen. -/
theorem controlRegistersRead : Obligations.ControlRegistersRead := by
  intro s hb
  have h := fun r => hostRead_register r hb
  exact ⟨h .id, h .version, configWord_setWidth s ▸ h .config, h .cmd, h .status, h .errCmd, h .blkCnt, h .srcAddr,
    h .srcLen, h .piAddr, h .piLen, h .pfAddr, h .pfLen, h .dstAddr, h .fields, h .blobLen⟩

/-! ### Writes of the control region -/

theorem hostWrite_register (r : RegName) (v : Lane) (hb : s.busy = false) :
    hostWrite (regOffset r) .w4 v s = .ok (writeRegister (regOffset r) (v.setWidth 32) s) :=
  hostWrite_control v (regOffset_lt r).1 (regOffset_lt r).2 hb

/-- The registers a host write leaves alone (R53). -/
def readOnlyRegisters : List RegName := [.id, .version, .config, .errCmd, .blkCnt, .fields, .blobLen]

theorem writeRegister_readOnly {r : RegName} (hr : r ∈ readOnlyRegisters) (w : Word) (s : State) :
    writeRegister (regOffset r) w s = s := by
  rw [writeRegister, registerAt_regOffset]
  cases r <;> simp [readOnlyRegisters] at hr ⊢

theorem writeStatus_setWidth (v : Lane) (s : State) :
    writeStatus (v.setWidth 32) s = if v.getLsbD 4 then { s with wdrop := false } else s := by
  simp [writeStatus]

/-- A write to CMD is the acceptance of the word; beyond it only the schedule moves (40_control.md R110). -/
theorem writeRegister_cmd (w : Word) (s : State) : ∃ wait schedule draws, writeRegister (regOffset .cmd) w s =
    { s with
      cmd := w, busy := true, err := false, errCode := .noError
      env := { s.env with wait := wait, schedule := schedule, draws := draws } } :=
  ⟨_, _, _, drawLatency_frame (s := accept w s)⟩

/-- Settles O48: `hostWrite_register` for each assigned offset; the reserved ones hold no register. -/
theorem controlRegistersWrite : Obligations.ControlRegistersWrite := by
  intro s v hb
  have h := fun r => hostWrite_register r v hb
  refine ⟨h .srcAddr, h .srcLen, h .piAddr, h .piLen, h .pfAddr, h .pfLen, h .dstAddr, ?_, ?_, ?_, ?_⟩
  · rw [← writeStatus_setWidth]
    exact h .status
  · obtain ⟨_, _, _, hacc⟩ := writeRegister_cmd (v.setWidth 32) s
    exact ⟨_, (h .cmd).trans (congrArg Except.ok hacc), rfl, rfl⟩
  · refine (List.forall_mem_map (f := regOffset) (l := readOnlyRegisters)).2 fun r hr => ?_
    rw [h, writeRegister_readOnly hr]
  · refine fun off hal ho => ⟨hostRead_reserved_control hal ho, ?_⟩
    rw [hostWrite_control v (by omega) hal hb, writeRegister_reserved _ s (by omega)]

end Sys2Proof.Machine
end

section
/-! SUPPORT. Accesses of every width in the windows and at the reserved buffer offsets (20_memory.md R55 to R60, R64,
R67), with O49 to O52 and O54. -/

namespace Sys2Proof.Machine

open Sys2Proof.Slice0

variable {s : State} {k base lim : Nat} {n : Width} {f : Nat → Byte}

/-! ### What an aligned access covers -/

/-- A window starts at a multiple of 8, so that an access aligned in the window is aligned in the aperture. -/
theorem aligned_in_window (hbase : base % 8 = 0) (hal : k % widthBytes n = 0) : (base + k) % widthBytes n = 0 := by
  cases n <;> simp only [widthBytes] at * <;> omega

theorem accessFault_buffer_window (hal : k % widthBytes n = 0) (hbase : base % 8 = 0) (h0 : 0x100 ≤ base)
    (h : base + k < 0x1000) : accessFault s (base + k) n = none :=
  accessFault_buffer (by omega) h (aligned_in_window hbase hal)

theorem accessFault_dmem (hal : k % widthBytes n = 0) (hk : k < dmemBytes s) :
    accessFault s (0x1000000 + k) n = none :=
  (accessFault_none_iff _ _ _).2 ⟨.inr ⟨by omega, by omega⟩, aligned_in_window (by decide) hal, by omega⟩

theorem aligned_end_le (hal : k % widthBytes n = 0) (hlim : lim % 8 = 0) (hk : k < lim) : k + widthBytes n ≤ lim := by
  cases n <;> simp only [widthBytes] at * <;> omega

/-- A read in a window whose bytes are known is their little-endian sum (R64). -/
theorem readValue_window (hbyte : ∀ c, c < lim → byteAt s (base + c) = f c) (hlim : lim % 8 = 0) (hk : k < lim)
    (hal : k % widthBytes n = 0) :
    readValue s (base + k) n = littleEndian (widthBytes n) fun j => f (k + j) :=
  readValue_eq_sum fun j hj => by rw [Nat.add_assoc]; exact hbyte _ (aligned_fits hal hlim hk hj)

/-- An array overwritten at k holds there the little-endian bytes of the value, as the laws of the writes state it. -/
theorem overwritten_eq_leBytes (k m : Nat) (v : Lane) (f : Nat → Byte) (c : Nat) : overwritten k m v f c =
    if h : k ≤ c ∧ c - k < (leBytes m v).length then (leBytes m v)[c - k]'h.2 else f c := by
  unfold overwritten
  by_cases h : k ≤ c ∧ c < k + m
  · rw [if_pos h, dif_pos (by rw [leBytes_length]; omega)]
    simp [leBytes, laneByte_eq_extract]
  · rw [if_neg h, dif_neg (by rw [leBytes_length]; omega)]

theorem littleEndian_eq_leValue {m : Nat} (hm : m ≤ 8) (f : Nat → Byte) :
    littleEndian m f = leValue ((List.range m).map f) := by
  have hsum := (leValue_toNat ((List.range m).map f) (by simpa using hm)).1
  have hget : (List.range m).map (fun k => (((List.range m).map f).getD k 0).toNat * 2 ^ (8 * k)) =
      (List.range m).map fun k => (f k).toNat * 2 ^ (8 * k) :=
    List.map_congr_left fun k hk => by simp [List.mem_range.1 hk]
  rw [List.length_map, List.length_range, hget] at hsum
  rw [littleEndian, ← hsum, BitVec.ofNat_toNat, BitVec.setWidth_eq]

/-- The low bytes of a value, read back (R64). -/
theorem leValue_leBytes (m : Nat) (v : Lane) : leValue (leBytes m v) = (v.setWidth (8 * m)).setWidth 64 := by
  apply lane_ext_bytes
  intro k hk
  rw [laneByte_leValue _ k hk, List.getD_eq_getElem?_getD]
  apply BitVec.eq_of_getLsbD_eq
  intro i hi
  rw [getLsbD_laneByte, BitVec.getLsbD_setWidth, BitVec.getLsbD_setWidth]
  by_cases hkm : k < m
  · rw [leBytes_getElem? m v k hkm, Option.getD_some, getLsbD_laneByte]
    simp [show 8 * k + i < 64 by omega, show 8 * k + i < 8 * m by omega]
  · rw [List.getElem?_eq_none (by rw [leBytes_length]; omega)]
    simp [show ¬8 * k + i < 8 * m by omega]

theorem toNat_leValue_leBytes (m : Nat) (v : Lane) : (leValue (leBytes m v)).toNat = v.toNat % 2 ^ (8 * m) := by
  rw [leValue_leBytes, BitVec.toNat_setWidth, BitVec.toNat_setWidth]
  exact Nat.mod_eq_of_lt ((Nat.mod_le ..).trans_lt v.isLt)

/-! ### The reserved buffer offsets -/

/-- The reserved buffer offsets (R59). -/
def ReservedOffset (off : Nat) : Prop :=
  0x1C8 ≤ off ∧ off < 0x200 ∨ 0x288 ≤ off ∧ off < 0x300 ∨ 0x388 ≤ off ∧ off < 0x1000

theorem ReservedOffset.aligned_access {off : Nat} (h : ReservedOffset off) (hal : off % widthBytes n = 0)
    (hk : k < widthBytes n) : ReservedOffset (off + k) := by
  rcases h with ⟨hlo, hhi⟩ | ⟨hlo, hhi⟩ | ⟨hlo, hhi⟩
  · exact .inl ⟨by omega, aligned_fits hal rfl hhi hk⟩
  · exact .inr (.inl ⟨by omega, aligned_fits hal rfl hhi hk⟩)
  · exact .inr (.inr ⟨by omega, aligned_fits hal rfl hhi hk⟩)

theorem ReservedOffset.bounds {off : Nat} (h : ReservedOffset off) : 0x100 ≤ off ∧ off < 0x1000 := by
  unfold ReservedOffset at h
  omega

theorem byteAt_reserved {off : Nat} (h : ReservedOffset off) : byteAt s off = 0 := by
  simp [byteAt, region_reserved s h]

theorem writeByteAt_reserved {off : Nat} (b : Byte) (h : ReservedOffset off) : writeByteAt off b s = s := by
  simp [writeByteAt, region_reserved s h]

/-- A reserved buffer offset reads 0, whatever BUSY is (R59, R70). -/
theorem hostRead_reserved {off : Nat} (h : ReservedOffset off) (hal : off % widthBytes n = 0) :
    hostRead off n s = .ok (0, s) := by
  obtain ⟨hlo, hhi⟩ := h.bounds
  have hu : busyUnspecified s off = false := by simp [busyUnspecified, region_reserved s h]
  rw [hostRead_busy_defined (accessFault_buffer hlo hhi hal) (by omega) hu,
    readValue_zero fun k hk => byteAt_reserved (h.aligned_access hal hk)]

/-- Settles O49: every byte of an aligned access at a reserved offset is itself reserved. -/
theorem reservedOffsetsInert : Obligations.ReservedOffsetsInert := by
  refine fun s off n v hal (h : ReservedOffset off) => ⟨hostRead_reserved h hal, fun hb => ?_⟩
  obtain ⟨hlo, hhi⟩ := h.bounds
  rw [hostWrite_window v (accessFault_buffer hlo hhi hal) hlo hb, writeBytesAt_inert]
  intro k b hk
  rw [leBytes_length] at hk
  exact writeByteAt_reserved b (h.aligned_access hal hk)

/-! ### IN and OUT -/

theorem writeByteAt_out {c : Nat} (b : Byte) (hc : c < 136) : writeByteAt (0x300 + c) b s = s := by
  simp [writeByteAt, region_out s (off := 0x300 + c) (by omega) (by omega)]

/-- The IN window reads IN, whatever BUSY is (R57, R70). -/
theorem hostRead_in (hk : k < 136) (hal : k % widthBytes n = 0) :
    hostRead (0x200 + k) n s = .ok (littleEndian (widthBytes n) fun j => blockByte s.inBuf (k + j), s) := by
  have hu : busyUnspecified s (0x200 + k) = false := by
    simp [busyUnspecified, region_in s (off := 0x200 + k) (by omega) (by omega)]
  rw [hostRead_busy_defined (accessFault_buffer_window hal rfl (by decide) (by omega)) (by omega) hu,
    readValue_window (fun c hc => byteAt_in s hc) rfl hk hal]

/-- Settles O50: the bytes of the two windows are `byteAt_in` and `byteAt_out`, a write to IN is `writeBytesAt_in`, and
no byte of OUT takes a write. -/
theorem inAndOutWindows : Obligations.InAndOutWindows := by
  intro s k n v hb hk hal
  have hfin : accessFault s (0x200 + k) n = none := accessFault_buffer_window hal rfl (by decide) (by omega)
  have hfout : accessFault s (0x300 + k) n = none := accessFault_buffer_window hal rfl (by decide) (by omega)
  refine ⟨hostRead_in hk hal, ?_, ⟨_, hostWrite_window v hfin (by omega) hb, ?_⟩, ?_⟩
  · rw [hostRead_idle hfout hb, readValue_window (fun c hc => byteAt_out s hc) rfl hk hal]
  · have hend : k + (leBytes (widthBytes n) v).length ≤ 136 := by
      rw [leBytes_length]
      exact aligned_end_le hal rfl hk
    obtain ⟨hframe, hbytes⟩ := writeBytesAt_in _ (s := s) hend
    exact ⟨hframe, fun j hj => (hbytes j hj).trans (overwritten_eq_leBytes ..).symm⟩
  · rw [hostWrite_window v hfout (by omega) hb, writeBytesAt_inert]
    intro j b hj
    rw [leBytes_length] at hj
    rw [Nat.add_assoc]
    exact writeByteAt_out b (aligned_fits hal rfl hk hj)

/-! ### STATE -/

/-- The unmasked bytes end at a multiple of 8: at 136, or in IDLE at 200 (R55, R56). -/
theorem unmasked_limit (hk : k < 200) (hm : k < 136 ∨ s.phase = .idle) :
    ∃ lim, lim % 8 = 0 ∧ k < lim ∧ lim ≤ 200 ∧ (lim ≤ 136 ∨ s.phase = .idle) := by
  rcases hm with h | h
  · exact ⟨136, rfl, h, by decide, .inl le_rfl⟩
  · exact ⟨200, rfl, hk, le_rfl, .inr h⟩

/-- Settles O52: the unmasked bytes of the window are those of `byteAt_state`, and a write is `writeBytesAt_state`. -/
theorem stateWindowBytes : Obligations.StateWindowBytes := by
  intro s b n v hb hlt hal hm
  have hf : accessFault s (0x100 + b) n = none := accessFault_buffer_window hal rfl (by decide) (by omega)
  obtain ⟨lim, hlim, hblim, h200, hmask⟩ := unmasked_limit hlt hm
  refine ⟨?_, _, hostWrite_window v hf (by omega) hb, ?_⟩
  · rw [hostRead_idle hf hb, readValue_window (lim := lim) (f := stateByte s.lanes) _ hlim hblim hal]
    exact fun c hc => byteAt_state s (by omega) (hmask.imp_left fun h => by omega)
  · have hend : b + (leBytes (widthBytes n) v).length ≤ lim := by
      rw [leBytes_length]
      exact aligned_end_le hal hlim hblim
    obtain ⟨hframe, hbytes⟩ := writeBytesAt_state (leBytes (widthBytes n) v) (s := s) (c := b) (by omega)
      (hmask.imp_left fun h => by omega)
    exact ⟨hframe, fun c hc => (hbytes c hc).trans (overwritten_eq_leBytes ..).symm⟩

/-- Byte k of lane i is byte 8i + k of the array (R55). -/
theorem stateByte_of_lane (A : Lanes) (i : Nat) (hk : k < 8) : stateByte A (8 * i + k) = laneByte (lane A i) k := by
  rw [stateByte, show (8 * i + k) / 8 = i by omega, show (8 * i + k) % 8 = k by omega]
  rfl

/-- Settles O51: the eight bytes of O52's access are those of one lane. -/
theorem stateWindowLanes : Obligations.StateWindowLanes := by
  intro s i v hb hi hm
  obtain ⟨hread, t, hwrite, hframe, hbytes⟩ := stateWindowBytes s (8 * i) .w8 v hb (by omega) (by simp)
    (hm.imp_left fun h => by omega)
  refine ⟨?_, t, hwrite, hframe, fun j hj => lane_ext_bytes fun k hk => ?_⟩
  · have hlane : (List.range 8).map (fun k => stateByte s.lanes (8 * i + k)) = le64bytes (lane s.lanes i) :=
      List.map_congr_left fun k hk => stateByte_of_lane _ _ (List.mem_range.1 hk)
    rw [hread, littleEndian_eq_leValue le_rfl, hlane, le64bytes, leValue_leBytes_eight]
  · rw [← stateByte_of_lane _ _ hk, hbytes _ (by omega), overwritten]
    by_cases hji : j = i
    · subst hji
      rw [if_pos rfl, if_pos (by simp only [widthBytes]; omega), Nat.add_sub_cancel_left]
      rfl
    · rw [if_neg hji, if_neg (by simp only [widthBytes]; omega), stateByte_of_lane _ _ hk]

/-! ### DMEM -/

theorem dmemBytes_mod_eight (s : State) : dmemBytes s % 8 = 0 :=
  Nat.mod_eq_zero_of_dvd (pow_dvd_pow 2 (show 3 ≤ 8 + s.dmemSize.step.val by omega))

/-- A byte of DMEM after a MemWrite (R71). -/
theorem dmemRead_memWrite (a : Nat) (bs : Bytes) (s : State) (c : Nat) : dmemRead (memWrite a bs s) c =
    if h : a ≤ c ∧ c - a < bs.length then bs[c - a]'h.2 else dmemRead s c := by
  by_cases h : a ≤ c ∧ c - a < bs.length
  · rw [dif_pos h, ← dmemRead_memWrite_inside a bs s _ h.2, Nat.add_sub_cancel' h.1]
  · rw [dif_neg h, dmemRead_memWrite_outside a bs s c (by omega)]

/-- A read in the DMEM window gives the bytes of DMEM it covers (R60, R64). -/
theorem hostRead_dmem {a : Nat} (hb : s.busy = false) (ha : a < dmemBytes s) (hal : a % widthBytes n = 0) :
    hostRead (0x1000000 + a) n s = .ok (littleEndian (widthBytes n) fun k => dmemRead s (a + k), s) := by
  rw [hostRead_idle (accessFault_dmem hal ha) hb,
    readValue_window (fun c hc => byteAt_dmem s hc) (dmemBytes_mod_eight s) ha hal]

/-- A write in the DMEM window is a MemWrite (R60, R71). -/
theorem hostWrite_dmem {a : Nat} (v : Lane) (hb : s.busy = false) (ha : a < dmemBytes s)
    (hal : a % widthBytes n = 0) :
    hostWrite (0x1000000 + a) n v s = .ok (memWrite a (leBytes (widthBytes n) v) s) := by
  rw [hostWrite_window v (accessFault_dmem hal ha) (by omega) hb, writeBytesAt_dmem]
  rw [leBytes_length]
  exact aligned_end_le hal (dmemBytes_mod_eight s) ha

/-- A MemRead of a value just written gives its low bytes back (R64, R71). -/
theorem toNat_littleEndian_memWrite {m : Nat} (hm : m ≤ 8) (a : Nat) (v : Lane) (s : State) :
    (littleEndian m fun k => dmemRead (memWrite a (leBytes m v) s) (a + k)).toNat = v.toNat % 2 ^ (8 * m) := by
  have hback : memRead (memWrite a (leBytes m v) s) a m = leBytes m v := by
    simpa using memRead_memWrite a (leBytes m v) s
  rw [littleEndian_eq_leValue hm, ← toNat_leValue_leBytes]
  exact congrArg (fun bs => (leValue bs).toNat) hback

/-- Settles O54: the accesses are a MemRead and a MemWrite, and the read-back is `toNat_littleEndian_memWrite`. -/
theorem dmemWindowIsLittleEndian : Obligations.DmemWindowIsLittleEndian := by
  refine fun s a n v hb ha hal => ⟨hostRead_dmem hb ha hal, _, hostWrite_dmem v hb ha hal, memWrite_frame ..,
    fun c => (dmemRead_memWrite ..).trans (overwritten_eq_leBytes ..).symm, _, hostRead_dmem ?_ ?_ hal,
    toNat_littleEndian_memWrite (by cases n <;> decide) a v s⟩
  · rw [memWrite_frame]
    exact hb
  · rw [memWrite_frame]
    exact ha

end Sys2Proof.Machine
end

section
/-! SUPPORT. The reads that are defined while BUSY = 1 (20_memory.md R70), with O45. -/

namespace Sys2Proof.Machine

/-- STATUS while a command is in flight: every field but PHASE is the register's (R70, log entry 4). -/
theorem hostRead_status_busy {s : State} (hb : s.busy = true) :
    ∃ p, hostRead 0x014 .w4 s = .ok ((statusWith p s).setWidth 64, countDraw s) :=
  ⟨_, by rw [hostRead, accessFault_control s (by decide) rfl, hb]; rfl⟩

/-- Settles O45: the reads of `hostRead_register_defined`, `hostRead_in`, `hostRead_reserved` and
`hostRead_reserved_control` do not depend on BUSY; STATUS is `hostRead_status_busy`. -/
theorem definedReadsWhileBusy : Obligations.DefinedReadsWhileBusy := by
  intro s hb herr hcode
  have h := fun r hr => hostRead_register_defined (s := s) (r := r) hr
  refine ⟨h .id (by decide), h .version (by decide), configWord_setWidth s ▸ h .config (by decide),
    h .cmd (by decide), h .srcAddr (by decide), h .srcLen (by decide), h .piAddr (by decide), h .piLen (by decide),
    h .pfAddr (by decide), h .pfLen (by decide), h .dstAddr (by decide), fun k n hk hal => hostRead_in hk hal,
    fun off n hal hres => hostRead_reserved hres hal, fun off hal ho => hostRead_reserved_control hal ho, ?_⟩
  obtain ⟨p, hstatus⟩ := hostRead_status_busy hb
  refine ⟨_, _, hstatus, ?_, ?_, ?_, ?_, ?_⟩
  · rw [BitVec.getLsbD_setWidth, getLsbD_statusWith_low p s (by decide)]
    exact hb
  · rw [BitVec.getLsbD_setWidth, getLsbD_statusWith_low p s (by decide)]
    exact herr
  · rw [BitVec.getLsbD_setWidth, getLsbD_statusWith_low p s (by decide)]
    rfl
  · rw [BitVec.extractLsb'_setWidth_of_le (by decide), statusWith_reservedField]
  · rw [BitVec.extractLsb'_setWidth_of_le (by decide)]
    exact (statusWith_extract_high p s 0 56).trans (by rw [hcode]; rfl)

end Sys2Proof.Machine
end

section
/-! SUPPORT. The statements of the host's program and the engine's turn (30_encoding.md R98, 40_control.md R111), with
O60 and O6. -/

namespace Sys2Proof.Machine

open Sys2Proof.Slice0

variable {s u : State} {n : Width} {off t : Nat} {v : Lane} {f : Fault}

theorem hostExec_write_ok (h : hostWrite off n v (passStatement s) = .ok u) :
    hostExec (.write n off v) s = .next u := by
  simp only [hostExec, h]

theorem hostExec_write_error (h : hostWrite off n v (passStatement s) = .error f) :
    hostExec (.write n off v) s = .fault f := by
  simp only [hostExec, h]

theorem hostExec_read_ok (h : hostRead off n (passStatement s) = .ok (v, u)) :
    hostExec (.read n off t) s = .next (setHostVar t v u) := by
  simp only [hostExec, h]

theorem hostExec_read_error (h : hostRead off n (passStatement s) = .error f) :
    hostExec (.read n off t) s = .fault f := by
  simp only [hostExec, h]

theorem hostExec_bnz (s : State) (t : Nat) (mask : Lane) (label : Nat) : hostExec (.bnz t mask label) s =
    .next (if hostVar s t &&& mask ≠ 0 then hostGoto label (passStatement s) else passStatement s) :=
  (apply_ite ..).symm

theorem hostExec_bz (s : State) (t : Nat) (mask : Lane) (label : Nat) : hostExec (.bz t mask label) s =
    .next (if hostVar s t &&& mask = 0 then hostGoto label (passStatement s) else passStatement s) :=
  (apply_ite ..).symm

theorem hostVar_setHostVar (s : State) (t j : Nat) (v : Lane) :
    hostVar (setHostVar t v s) j = if j = t then v else hostVar s j := by
  simp only [hostVar, setHostVar, cellLookup_insert]
  split_ifs <;> rfl

/-- A read leaves the host's variables as they were. -/
theorem hostVar_of_hostRead (h : hostRead off n (passStatement s) = .ok (v, u)) (j : Nat) :
    hostVar u j = hostVar s j := by
  rw [(hostRead_frame h).1]
  rfl

/-- Settles O60: one equation for each form of statement, and `hostVar_setHostVar` for the variable a read assigns. -/
theorem hostStatements : Obligations.HostStatements := by
  refine fun s t label off n mask v c => ⟨rfl, fun u => hostExec_write_ok, fun f => hostExec_write_error,
    fun x u h => ⟨_, hostExec_read_ok h, ?_, fun j hj => ?_, rfl⟩, fun f => hostExec_read_error,
    hostExec_bnz s t mask label, hostExec_bz s t mask label, rfl, rfl, rfl⟩
  · rw [hostVar_setHostVar, if_pos rfl]
  · rw [hostVar_setHostVar, if_neg hj, hostVar_of_hostRead h]

/-- Settles O6: `step_of_engine` with the decoder's two answers, and `step_of_host`. -/
theorem stepRunsDecodedCommand : Obligations.StepRunsDecodedCommand := by
  refine ⟨fun s i ⟨hr, hb, hw⟩ hd => ?_, fun s e ⟨hr, hb, hw⟩ hd => ?_,
    fun s st ⟨hr, hn, hw⟩ => step_of_host hr hn hw⟩
  · rw [step_of_engine hr hb hw, engineStep, hd]
  · rw [step_of_engine hr hb hw, engineStep, hd]
    rfl

end Sys2Proof.Machine
end

section
/-! SUPPORT. The decoder's checks in their order, and encoding and decoding as inverses (30_encoding.md R92 to R95),
with O1 to O4. -/

namespace Sys2Proof

open Machine Slice0

/-! ### The opcode of an operation -/

/-- The operation of a command, without its immediate (R94). -/
def Instr.operation : Instr → Opcode
  | .nop => .nop
  | .clear => .clear
  | .permute => .permute
  | .round _ => .round
  | .theta => .theta
  | .rhopi => .rhopi
  | .chi => .chi
  | .iota _ => .iota
  | .init => .init
  | .absorb => .absorb
  | .final _ => .final
  | .squeeze => .squeeze
  | .hash => .hash
  | .pack => .pack
  | .proofid => .proofid

@[simp] theorem buildInstr_operation_immediate (i : Instr) : buildInstr i.operation i.immediate = i := by
  cases i <;> rfl

@[simp] theorem opcodeOf_opc (i : Instr) : opcodeOf (BitVec.ofNat 8 i.opc) = some i.operation := by
  cases i <;> rfl

theorem immediate_of_takesImm_false {i : Instr} (h : takesImm i.operation = false) : i.immediate = 0 := by
  cases i <;> simp [Instr.operation, takesImm, Instr.immediate] at h ⊢

/-- The operand ranges (R92), read on the operation and its immediate as the decoder checks them. -/
theorem wf_buildInstr_iff (op : Opcode) (m : Byte) : (buildInstr op m).wf = true ↔
    (op = .final → m.toNat ≤ 135) ∧ (op = .round ∨ op = .iota → m.toNat ≤ 23) := by
  cases op <;> simp [buildInstr, Instr.wf]

variable {w : Word} {op : Opcode} {i : Instr} {e : ErrCode}

/-- The opcode map lists the fifteen assigned opcodes (R94). -/
theorem mem_assignedOpcodes_iff : w.toNat % 256 ∈ assignedOpcodes ↔ ∃ op, opcodeOf (opcField w) = some op := by
  have hkeys : assignedOpcodes = opcodeMap.map (·.1.toNat) := rfl
  rw [← Option.isSome_iff_exists, opcodeOf, List.lookup_isSome_iff, hkeys, List.mem_map]
  simp only [beq_iff_eq, ← BitVec.toNat_inj, opcField_toNat, eq_comm (b := w.toNat % 256)]

theorem opc_buildInstr (hop : opcodeOf (opcField w) = some op) (m : Byte) :
    (buildInstr op m).opc = w.toNat % 256 := by
  rw [opcodeOf_eq_some _ _ _ hop, opcField_toNat]

/-- The opcodes of the three commands with an operand (R92). -/
theorem takesImm_eq_false_iff (hop : opcodeOf (opcField w) = some op) :
    takesImm op = false ↔ w.toNat % 256 ∉ [0x22, 0x11, 0x15] := by
  rw [← opc_buildInstr hop 0]
  cases op <;> decide

theorem eq_final_iff (hop : opcodeOf (opcField w) = some op) : op = .final ↔ w.toNat % 256 = 0x22 := by
  rw [← opc_buildInstr hop 0]
  cases op <;> decide

theorem eq_round_or_iota_iff (hop : opcodeOf (opcField w) = some op) :
    op = .round ∨ op = .iota ↔ w.toNat % 256 ∈ [0x11, 0x15] := by
  rw [← opc_buildInstr hop 0]
  cases op <;> decide

/-! ### The fields of a word as numbers -/

theorem rsvField_eq_zero_iff : rsvField w = 0 ↔ w.toNat / 65536 = 0 := by
  rw [← BitVec.toNat_inj, rsvField_toNat]
  rfl

theorem immField_toNat_of_rsv_zero (hrsv : w.toNat / 65536 = 0) : (immField w).toNat = w.toNat / 256 := by
  rw [immField_toNat]
  omega

theorem immField_eq_zero_iff (hrsv : w.toNat / 65536 = 0) : immField w = 0 ↔ w.toNat / 256 = 0 := by
  rw [← BitVec.toNat_inj, immField_toNat_of_rsv_zero hrsv]
  rfl

/-! ### One equation for each check of the decoder (R95) -/

theorem decode_unassigned (hop : opcodeOf (opcField w) = none) : decode w = .error .illegalOpcode := by
  simp only [decode, hop]

theorem decode_reservedBits (hop : opcodeOf (opcField w) = some op)
    (h : rsvField w ≠ 0 ∨ takesImm op = false ∧ immField w ≠ 0) : decode w = .error .reservedBits := by
  simp only [decode, hop]
  by_cases hrsv : rsvField w ≠ 0
  · rw [if_pos hrsv]
  · rw [if_neg hrsv, if_pos (h.resolve_left hrsv)]

theorem decode_badLen (hop : opcodeOf (opcField w) = some .final) (hrsv : rsvField w = 0)
    (hlen : 135 < (immField w).toNat) : decode w = .error .badLen := by
  simp [decode, hop, hrsv, hlen, takesImm]

theorem decode_badRound (hop : opcodeOf (opcField w) = some op) (hrsv : rsvField w = 0)
    (hround : op = .round ∨ op = .iota) (hr : 23 < (immField w).toNat) : decode w = .error .badRound := by
  rcases hround with rfl | rfl <;> simp [decode, hop, hrsv, hr, takesImm]

/-- A word that passes every check is the command of its opcode and immediate; `decode_ok` is the converse. -/
theorem decode_buildInstr (hop : opcodeOf (opcField w) = some op) (hrsv : rsvField w = 0)
    (himm : takesImm op = false → immField w = 0) (hwf : (buildInstr op (immField w)).wf = true) :
    decode w = .ok (buildInstr op (immField w)) := by
  obtain ⟨hlen, hround⟩ := (wf_buildInstr_iff ..).mp hwf
  simp only [decode, hop]
  rw [if_neg (not_not.mpr hrsv), if_neg fun h => h.2 (himm h.1), if_neg fun h => by have := hlen h.1; omega,
    if_neg fun h => by have := hround h.1; omega]

/-! ### Encoding and decoding are inverse -/

/-- Settles O1: the three fields of an encoding (`opcField_encode`, `immField_encode`, `rsvField_encode`) pass every
check. -/
theorem decodeOfEncode : Obligations.DecodeOfEncode := by
  intro i hwf
  have hi : buildInstr i.operation (immField (encode i)) = i := by
    rw [immField_encode, buildInstr_operation_immediate]
  have hop : opcodeOf (opcField (encode i)) = some i.operation := by
    rw [opcField_encode, opcodeOf_opc]
  have hdecode := decode_buildInstr hop (rsvField_encode i)
    (fun h => (immField_encode i).trans (immediate_of_takesImm_false h)) (hi.symm ▸ hwf)
  rwa [hi] at hdecode

/-- Settles O2: `decode_ok` names the three fields of the word, and they are those of the encoding. -/
theorem encodeOfDecode : Obligations.EncodeOfDecode := by
  intro w i h
  obtain ⟨op, hop, hrsv, himm, hlen, hround, rfl⟩ := decode_ok h
  refine ⟨(wf_buildInstr_iff ..).mpr ⟨hlen, hround⟩, BitVec.eq_of_toNat_eq ?_⟩
  rw [encode_toNat, opcodeOf_eq_some _ _ _ hop, immediate_buildInstr _ _ himm, word_toNat_fields w, hrsv]
  rfl

/-! ### The step of a due engine on a decoded and on a refused word -/

theorem runs_of_decode (h : decode w = .ok i) : Runs w i :=
  ⟨h, fun s hdue hw => stepRunsDecodedCommand.1 s i hdue (hw ▸ h)⟩

theorem refuses_of_decode (h : decode w = .error e) : Refuses w e :=
  ⟨h, fun s hdue hw => stepRunsDecodedCommand.2.1 s e hdue (hw ▸ h)⟩

/-- Settles O3: each clause is one equation of the decoder, its premises read on the fields of the word. -/
theorem decodeChecksInOrder : Obligations.DecodeChecksInOrder := by
  intro w
  refine ⟨fun hopc => ?_, fun hopc hrsv => ?_, fun hopc hrsv hno himm => ?_, fun hrsv hfinal hlen => ?_,
    fun hrsv hround hr => ?_, fun hopc hrsv himm hlen hr => ?_⟩
  · exact refuses_of_decode (decode_unassigned (Option.eq_none_iff_forall_ne_some.mpr
      fun op hop => hopc (mem_assignedOpcodes_iff.mpr ⟨op, hop⟩)))
  · obtain ⟨op, hop⟩ := mem_assignedOpcodes_iff.mp hopc
    exact refuses_of_decode (decode_reservedBits hop (.inl (rsvField_eq_zero_iff.not.mpr hrsv)))
  · obtain ⟨op, hop⟩ := mem_assignedOpcodes_iff.mp hopc
    exact refuses_of_decode (decode_reservedBits hop
      (.inr ⟨(takesImm_eq_false_iff hop).mpr hno, (immField_eq_zero_iff hrsv).not.mpr himm⟩))
  · have hassigned : w.toNat % 256 ∈ assignedOpcodes := by rw [hfinal]; decide
    obtain ⟨op, hop⟩ := mem_assignedOpcodes_iff.mp hassigned
    obtain rfl := (eq_final_iff hop).mpr hfinal
    exact refuses_of_decode (decode_badLen hop (rsvField_eq_zero_iff.mpr hrsv)
      (immField_toNat_of_rsv_zero hrsv ▸ hlen))
  · have hsub : [0x11, 0x15] ⊆ assignedOpcodes := by decide
    obtain ⟨op, hop⟩ := mem_assignedOpcodes_iff.mp (hsub hround)
    exact refuses_of_decode (decode_badRound hop (rsvField_eq_zero_iff.mpr hrsv)
      ((eq_round_or_iota_iff hop).mpr hround) (immField_toNat_of_rsv_zero hrsv ▸ hr))
  · obtain ⟨op, hop⟩ := mem_assignedOpcodes_iff.mp hopc
    rw [← takesImm_eq_false_iff hop, ← immField_eq_zero_iff hrsv] at himm
    rw [← eq_final_iff hop, ← immField_toNat_of_rsv_zero hrsv] at hlen
    rw [← eq_round_or_iota_iff hop, ← immField_toNat_of_rsv_zero hrsv] at hr
    refine ⟨buildInstr op (immField w), runs_of_decode (decode_buildInstr hop (rsvField_eq_zero_iff.mpr hrsv) himm
      ((wf_buildInstr_iff ..).mpr ⟨hlen, hr⟩)), opc_buildInstr hop _, ?_⟩
    rw [immediate_buildInstr _ _ himm, immField_toNat_of_rsv_zero hrsv]

/-- Settles O4: ten of the words are encodings of well-formed commands, and each of the other four fails one check. -/
theorem writtenWordsDecode : Obligations.WrittenWordsDecode := by
  exact ⟨decodeOfEncode .nop rfl, decodeOfEncode .clear rfl, decodeOfEncode .permute rfl,
    decodeOfEncode (.round 23) rfl, decodeOfEncode (.iota 0) rfl, decodeOfEncode .init rfl,
    decodeOfEncode (.final 135) rfl, decodeOfEncode .hash rfl, decodeOfEncode .pack rfl, decodeOfEncode .proofid rfl,
    decode_unassigned rfl, decode_reservedBits (op := .final) rfl (.inl (by decide)),
    decode_badLen rfl rfl (by decide), decode_badRound (op := .round) rfl rfl (.inl rfl) (by decide)⟩

end Sys2Proof
end

section
/-! SUPPORT. The life of a command: acceptance, its one ending, and its completion in a bounded number of steps
(40_control.md R110 to R112), with O7, O12 and O5. -/

namespace Sys2Proof.Machine

open Sys2Proof.Slice0

variable {s t : State} {st : HostStmt}

/-- Settles O7: a command whose checks pass has an effect, whose frame leaves the error fields alone; any other raises
one of its errors. -/
theorem commandEndsInSuccessOrOneError : Obligations.CommandEndsInSuccessOrOneError := by
  intro i s
  by_cases hr : ready i s
  · refine ⟨_, exec_of_ready i s hr, rfl, .inl ?_⟩
    rw [effect_frame]
    exact ⟨rfl, rfl, rfl⟩
  · obtain ⟨e, he, hx⟩ := exec_of_not_ready i s hr
    exact ⟨_, hx, rfl, .inr ⟨e, ne_of_mem_of_not_mem he (noError_not_mem_commandErrors i), rfl⟩⟩

theorem engineStep_completes (s : State) : ∃ t, engineStep s = .next t ∧ t.busy = false := by
  rcases engineStep_cases s with ⟨i, -, hx⟩ | ⟨e, -, hx⟩ <;> rw [hx]
  · obtain ⟨t, ht, hb, -⟩ := commandEndsInSuccessOrOneError i s
    exact ⟨t, ht, hb⟩
  · exact ⟨_, rfl, rfl⟩

/-- No statement of the host is refused. -/
theorem hostExec_answers_or_faults (st : HostStmt) (s : State) :
    (∃ t, hostExec st s = .next t) ∨ ∃ f, hostExec st s = .fault f := by
  cases st with
  | write n off v =>
    cases h : hostWrite off n v (passStatement s) with
    | ok u => exact .inl ⟨u, hostExec_write_ok h⟩
    | error f => exact .inr ⟨f, hostExec_write_error h⟩
  | read n off x =>
    cases h : hostRead off n (passStatement s) with
    | ok r => exact .inl ⟨_, hostExec_read_ok h⟩
    | error f => exact .inr ⟨f, hostExec_read_error h⟩
  | bnz x mask label => exact .inl ⟨_, hostExec_bnz s x mask label⟩
  | bz x mask label => exact .inl ⟨_, hostExec_bz s x mask label⟩
  | expect e v =>
    by_cases h : hostExprValue s e = v
    · exact .inl ⟨_, if_pos h⟩
    · exact .inr ⟨_, if_neg h⟩

/-- While a command is in flight a host write that answers only sets WDROP (20_memory.md R70). -/
theorem hostWrite_eq_of_busy {off : Nat} {n : Width} {v : Lane} (h : hostWrite off n v s = .ok t)
    (hb : s.busy = true) : t = { s with wdrop := true } := by
  rw [hostWrite_busy v (hostWrite_inversion h).1 hb] at h
  exact (Except.ok.inj h).symm

/-- A statement of the host leaves the command in flight there, and its wait is one statement shorter (log entry 2). -/
theorem hostExec_in_flight (h : hostExec st s = .next t) (hb : s.busy = true) :
    t.busy = true ∧ t.env.resetReq = s.env.resetReq ∧ t.env.wait = s.env.wait - 1 := by
  rcases hostExec_inversion h with ⟨n, off, v, -, hw⟩ | ⟨n, off, x, v, u, -, hr, rfl⟩ | rfl | ⟨label, rfl⟩
  · rw [hostWrite_eq_of_busy hw hb]
    exact ⟨hb, rfl, rfl⟩
  · rw [(hostRead_frame hr).1]
    exact ⟨hb, rfl, rfl⟩
  · exact ⟨hb, rfl, rfl⟩
  · exact ⟨hb, rfl, rfl⟩

/-- After j steps no command is in flight, or a statement of the host has faulted on the way. -/
def CompletesOrFaultsIn (j : Nat) (s : State) : Prop :=
  (∃ t : State, core.run j s = .next t ∧ t.busy = false) ∨ ∃ f, core.run j s = .fault f

theorem completesOrFaultsIn_succ {j : Nat} (h : step s = .next t) (ht : CompletesOrFaultsIn j t) :
    CompletesOrFaultsIn (j + 1) s := by
  unfold CompletesOrFaultsIn
  rwa [run_next h]

theorem completesOrFaultsIn_one_of_due (h : EngineDue s) : CompletesOrFaultsIn 1 s := by
  obtain ⟨hr, hb, hw⟩ := h
  obtain ⟨t, ht, hdone⟩ := engineStep_completes s
  exact completesOrFaultsIn_succ ((step_of_engine hr hb hw).trans ht) (.inl ⟨t, rfl, hdone⟩)

/-- Settles O12, by induction on the wait: the engine is due, or the host's next statement faults or shortens the
wait. -/
theorem commandInFlightCompletes : Obligations.CommandInFlightCompletes := by
  intro s hr hb
  change ∃ j, j ≤ s.env.wait + 1 ∧ CompletesOrFaultsIn j s
  induction hw : s.env.wait generalizing s with
  | zero => exact ⟨1, le_rfl, completesOrFaultsIn_one_of_due ⟨hr, hb, .inl hw⟩⟩
  | succ w ih =>
    cases hn : hostNext s with
    | none => exact ⟨1, by omega, completesOrFaultsIn_one_of_due ⟨hr, hb, .inr hn⟩⟩
    | some st =>
      have hstep : step s = hostExec st s := step_of_host hr hn fun _ => by omega
      rcases hostExec_answers_or_faults st s with ⟨t, ht⟩ | ⟨f, hf⟩
      · obtain ⟨hb', hr', hw'⟩ := hostExec_in_flight ht hb
        obtain ⟨j, hj, hrun⟩ := ih t (hr'.trans hr) hb' (by omega)
        exact ⟨j + 1, by omega, completesOrFaultsIn_succ (hstep.trans ht) hrun⟩
      · exact ⟨1, by omega, .inr ⟨f, run_fault (hstep.trans hf)⟩⟩

/-- Settles O5: `writeRegister_cmd` while BUSY = 0, and the drop of every legal write while BUSY = 1. -/
theorem acceptanceOfCommand : Obligations.AcceptanceOfCommand := by
  refine fun s v => ⟨fun hb => ?_, hostWrite_busy v (accessFault_register s .cmd)⟩
  obtain ⟨_, _, _, hacc⟩ := writeRegister_cmd (v.setWidth 32) s
  exact ⟨_, (hostWrite_register .cmd v hb).trans (congrArg Except.ok hacc), rfl, rfl⟩

end Sys2Proof.Machine
end

section
/-! SUPPORT. The words of an opcode without an operand (30_encoding.md R92, R95), and the control commands
(40_control.md R113, R114), with O13 and O14. -/

namespace Sys2Proof.Machine

open Sys2Proof.Slice0

/-- The bits above the opcode are IMM and RSV (30_encoding.md R90). -/
theorem extract_above_opcode_eq_zero_iff (w : Word) :
    w.extractLsb' 8 24 = 0 ↔ rsvField w = 0 ∧ immField w = 0 := by
  have hw := w.isLt
  simp only [← BitVec.toNat_inj, rsvField_toNat, immField_toNat, BitVec.extractLsb'_toNat, Nat.shiftRight_eq_div_pow,
    BitVec.ofNat_eq_ofNat, BitVec.toNat_ofNat]
  omega

/-- An opcode without an operand: alone it is its command, and with any other bit set it is RESERVED_BITS. -/
theorem noImmediate_of_takesImm_false {o : Byte} {op : Opcode} (hop : opcodeOf o = some op)
    (himm : takesImm op = false) : NoImmediate o (buildInstr op 0) := by
  rintro w rfl
  rw [Ne, extract_above_opcode_eq_zero_iff]
  refine ⟨fun ⟨hrsv, hm⟩ => ?_, fun h => ?_⟩
  · have hwf : (buildInstr op 0).wf = true := (wf_buildInstr_iff op 0).mpr ⟨by simp, by simp⟩
    have hd := decode_buildInstr hop hrsv (fun _ => hm) (hm.symm ▸ hwf)
    exact runs_of_decode (hm ▸ hd)
  · exact refuses_of_decode (decode_reservedBits hop ((not_and_or.mp h).imp_right fun hm => ⟨himm, hm⟩))

/-- Settles O13: NOP has no check to fail and no effect, so only the completion is left. -/
theorem nopCompletes : Obligations.NopCompletes :=
  ⟨noImmediate_of_takesImm_false (op := .nop) rfl rfl, fun s => exec_of_ready .nop s trivial⟩

theorem windowByte_zeroLanes (c : Nat) : windowByte zeroLanes c = 0 := by
  simp [windowByte, laneByte]

/-- In IDLE, where no lane is masked, the STATE window of a zero state array reads 0 (20_memory.md R55, R56). -/
theorem hostRead_state_zeroLanes {t : State} {off : Nat} {n : Width} (hb : t.busy = false) (hp : t.phase = .idle)
    (hz : t.lanes = zeroLanes) (hlo : 0x100 ≤ off) (hhi : off < 0x1C8) (hal : off % widthBytes n = 0) :
    hostRead off n t = .ok (0, t) := by
  rw [hostRead_idle (accessFault_buffer hlo (by omega) hal) hb, readValue_zero fun k hk => ?_]
  have hfit : off + k < 0x1C8 := aligned_fits hal rfl hhi hk
  obtain ⟨c, hc⟩ := Nat.exists_eq_add_of_le (show 0x100 ≤ off + k by omega)
  rw [hc, byteAt_state t (by omega) (.inr hp), hz, windowByte_zeroLanes]

/-- Settles O14: CLEAR is `startPhase .idle` and the completion. -/
theorem clearCompletes : Obligations.ClearCompletes :=
  ⟨noImmediate_of_takesImm_false (op := .clear) rfl rfl, fun s =>
    ⟨_, exec_of_ready .clear s trivial, rfl, fun i _ => lane_zeroLanes i, fun k _ => blockByte_zeroBlock k,
      fun _ _ => hostRead_state_zeroLanes rfl rfl rfl⟩⟩

end Sys2Proof.Machine
end

section
/-! SUPPORT. The words of an opcode with an operand (30_encoding.md R92, R95), and the permutation commands
(41_permutation.md, section 3), with O15 to O20. -/

namespace Sys2Proof.Machine

open Sys2Proof.Slice0

/-! ### Words with an operand, and commands with one error -/

/-- An opcode with an operand of 0 to `lim`, above which the decoder answers `e`. -/
theorem withImmediate_of_takesImm {o : Byte} {op : Opcode} {lim : Nat} {e : ErrCode} (hop : opcodeOf o = some op)
    (himm : takesImm op = true) (hwf : ∀ m : Byte, m.toNat ≤ lim → (buildInstr op m).wf = true)
    (herr : ∀ w, opcodeOf (opcField w) = some op → rsvField w = 0 → lim < (immField w).toNat → decode w = .error e) :
    WithImmediate o lim e (buildInstr op) := by
  rintro w rfl
  refine ⟨fun hrsv => ?_, fun hrsv hm => ?_, fun hrsv hm => ?_⟩
  · exact refuses_of_decode (decode_reservedBits hop (.inl hrsv))
  · exact refuses_of_decode (herr w hop hrsv hm)
  · exact runs_of_decode (decode_buildInstr hop hrsv (by simp [himm]) (hwf _ hm))

/-- The words of ROUND and of IOTA: a round index above 23 is BAD_ROUND. -/
theorem withImmediate_of_round_or_iota {o : Byte} {op : Opcode} (hop : opcodeOf o = some op)
    (hround : op = .round ∨ op = .iota) : WithImmediate o 23 .badRound (buildInstr op) := by
  obtain ⟨himm, hfinal⟩ : takesImm op = true ∧ op ≠ .final := by rcases hround with rfl | rfl <;> simp [takesImm]
  exact withImmediate_of_takesImm hop himm
    (fun m hm => (wf_buildInstr_iff op m).mpr ⟨fun hf => absurd hf hfinal, fun _ => hm⟩)
    fun _ hop hrsv => decode_badRound hop hrsv hround

/-- A command with one error of its own raises that one when its checks fail. -/
theorem exec_of_one_error {i : Instr} {s : State} {e : ErrCode} (he : commandErrors i = [e]) (h : ¬ready i s) :
    exec i s = .next (Raised e s) := by
  obtain ⟨e', hmem, hx⟩ := exec_of_not_ready i s h
  rw [he, List.mem_singleton] at hmem
  exact hmem ▸ hx

/-! ### The steps lane by lane, in the spec's coordinates -/

theorem parity_eq_columnParity (A : Lanes) (x : Nat) : parity A x = columnParity A x := by
  simp [parity, columnParity, List.range_succ]

/-- θ with the effect of the column written out (R122). -/
theorem lane_theta_parity (A : Lanes) {i : Nat} (h : i < 25) : lane (theta A) i =
    lane A i ^^^ (parity A ((i + 4) % 5) ^^^ (parity A ((i + 1) % 5)).rotateLeft 1) := by
  rw [lane_theta A i h, thetaEffect, rotl64_eq_rotateLeft _ 1 (by decide), Nat.mod_add_mod, Nat.mod_add_mod,
    parity_eq_columnParity, parity_eq_columnParity]

/-- With every column parity 0 every effect is 0 (R131). -/
theorem theta_eq_self {A : Lanes} (h : ∀ x, x < 5 → parity A x = 0) : theta A = A :=
  lanes_ext fun i hi => by
    rw [lane_theta_parity A hi, h _ (Nat.mod_lt _ (by decide)), h _ (Nat.mod_lt _ (by decide))]
    simp

/-- ρπ from the source: lane (x, y) is rotated by its offset and goes to (y, 2x + 3y mod 5) (R123). -/
theorem lane_rhoPi_dest (A : Lanes) {x y : Nat} (hx : x < 5) (hy : y < 5) :
    lane (rhoPi A) (y + 5 * ((2 * x + 3 * y) % 5)) = (lane A (x + 5 * y)).rotateLeft (rotationOffset (x + 5 * y)) := by
  rw [lane_rhoPi _ _ (by omega), rhoPiSource_dest x y hx hy,
    rotl64_eq_rotateLeft _ _ (rotationOffset_lt _ (by omega))]

theorem lane_rhoPi_zero (A : Lanes) : lane (rhoPi A) 0 = lane A 0 := by
  rw [lane_rhoPi A 0 (by decide)]
  rfl

theorem rotateLeft_injective {w : Nat} (r : Nat) : Function.Injective fun v : BitVec w => v.rotateLeft r := by
  intro u v h
  refine BitVec.eq_of_getMsbD_eq fun m hm => ?_
  have hbit := congrArg (fun z : BitVec w => z.getMsbD ((m + (w - r % w)) % w)) h
  have hback : (r + (m + (w - r % w)) % w) % w = m := by
    have hr := Nat.mod_lt r (by omega : 0 < w)
    rw [Nat.add_mod_mod, ← Nat.mod_add_mod, show r % w + (m + (w - r % w)) = m + w by omega, Nat.add_mod_right,
      Nat.mod_eq_of_lt hm]
  simpa [BitVec.getMsbD_rotateLeft, hback, Nat.mod_lt _ (by omega : 0 < w)] using hbit

/-- Every lane is found again, rotated, at its destination. -/
theorem rhoPi_injective {A B : Lanes} (h : rhoPi A = rhoPi B) : A = B := by
  refine lanes_ext fun i hi => ?_
  have hdest := congrArg (fun C => lane C (i / 5 + 5 * ((2 * (i % 5) + 3 * (i / 5)) % 5))) h
  have hx : i % 5 < 5 := Nat.mod_lt _ (by decide)
  simp only [lane_rhoPi_dest _ hx (show i / 5 < 5 by omega), Nat.mod_add_div] at hdest
  exact rotateLeft_injective _ hdest

/-- χ at lane (x, y) (R124). -/
theorem lane_chi_row (B : Lanes) {x y : Nat} (hx : x < 5) (hy : y < 5) : lane (chi B) (x + 5 * y) =
    lane B (x + 5 * y) ^^^ (~~~(lane B ((x + 1) % 5 + 5 * y)) &&& lane B ((x + 2) % 5 + 5 * y)) := by
  rw [lane_chi B _ (by omega), show (x + 5 * y) % 5 = x by omega, show (x + 5 * y) / 5 = y by omega]

theorem lane_chi_ones_row {B : Lanes} {x y : Nat} (hx : x < 5) (hy : y < 5)
    (h : ∀ z, z < 5 → lane B (z + 5 * y) = BitVec.allOnes 64) : lane (chi B) (x + 5 * y) = BitVec.allOnes 64 := by
  rw [lane_chi_row B hx hy, h x hx, h _ (Nat.mod_lt _ (by decide)), h _ (Nat.mod_lt _ (by decide))]
  decide

/-- In a row that is 0 but for column x, the term of χ at column z is the lane at z + 2, and z + 2 is x exactly at
z = x + 3 (R133). -/
theorem lane_chi_single_lane_row {B : Lanes} {x y z : Nat} (hx : x < 5) (hy : y < 5) (hz : z < 5)
    (h : ∀ z, z < 5 → z ≠ x → lane B (z + 5 * y) = 0) :
    lane (chi B) (z + 5 * y) = if z = x ∨ z = (x + 3) % 5 then lane B (x + 5 * y) else 0 := by
  rw [lane_chi_row B hz hy]
  by_cases hthree : z = (x + 3) % 5
  · rw [if_pos (.inr hthree), h z hz (by omega), h ((z + 1) % 5) (by omega) (by omega),
      show (z + 2) % 5 = x by omega, BitVec.ofNat_eq_ofNat, BitVec.not_zero,
      BitVec.allOnes_and, BitVec.zero_xor]
  · rw [h ((z + 2) % 5) (by omega) (by omega)]
    by_cases hsame : z = x
    · simp [hsame]
    · simp [hsame, hthree, h z hz hsame]

theorem lane_iota_zero (A : Lanes) (r : Nat) : lane (iota A r) 0 = lane A 0 ^^^ roundConstant r :=
  lane_iota A r 0 (by decide)

theorem lane_iota_of_pos (A : Lanes) (r : Nat) {i : Nat} (hpos : 0 < i) (h : i < 25) :
    lane (iota A r) i = lane A i := by
  rw [lane_iota A r i h, if_neg hpos.ne']

theorem iota_iota (A : Lanes) (r : Nat) : iota (iota A r) r = A := by
  refine lanes_ext fun i hi => ?_
  rcases i.eq_zero_or_pos with rfl | hpos
  · rw [lane_iota_zero, lane_iota_zero, BitVec.xor_assoc, BitVec.xor_self, BitVec.xor_zero]
  · rw [lane_iota_of_pos _ r hpos hi, lane_iota_of_pos _ r hpos hi]

/-! ### The commands -/

/-- Settles O15: PERMUTE has no check to fail, and its rounds are a fold. -/
theorem permuteCompletes : Obligations.PermuteCompletes := by
  refine ⟨noImmediate_of_takesImm_false (op := .permute) rfl rfl, fun s => ?_⟩
  rw [← permute_eq_foldl]
  exact exec_of_ready .permute s trivial

/-- Settles O16: the index in range makes ROUND ready, and BAD_ROUND is its one error. -/
theorem roundCompletes : Obligations.RoundCompletes :=
  ⟨withImmediate_of_round_or_iota (op := .round) rfl (.inl rfl), fun s r =>
    ⟨exec_of_ready (.round r) s, fun hr => exec_of_one_error (i := .round r) rfl hr.not_ge⟩⟩

/-- Settles O17: θ lane by lane, and an effect of 0 in every column. -/
theorem thetaCompletes : Obligations.ThetaCompletes :=
  ⟨noImmediate_of_takesImm_false (op := .theta) rfl rfl, fun s =>
    ⟨_, exec_of_ready .theta s trivial, rfl, fun _ => lane_theta_parity s.lanes, theta_eq_self⟩⟩

/-- Settles O18: ρπ at the destination of each lane, and its injectivity. -/
theorem rhopiCompletes : Obligations.RhopiCompletes :=
  ⟨noImmediate_of_takesImm_false (op := .rhopi) rfl rfl, fun s =>
    ⟨_, exec_of_ready .rhopi s trivial, rfl, fun _ _ => lane_rhoPi_dest s.lanes, lane_rhoPi_zero s.lanes⟩,
    fun _ _ => rhoPi_injective⟩

/-- Settles O19: χ in a row, in a row of ones, and in a row with one lane. -/
theorem chiCompletes : Obligations.ChiCompletes :=
  ⟨noImmediate_of_takesImm_false (op := .chi) rfl rfl, fun s =>
    ⟨_, exec_of_ready .chi s trivial, rfl, fun _ _ => lane_chi_row s.lanes,
      fun _ hy hones _ hx => lane_chi_ones_row hx hy hones,
      fun _ _ hx hy hzero _ hz => lane_chi_single_lane_row hx hy hz hzero⟩⟩

/-- Settles O20: ι in lane 0 and in the others, and the second ι undoing the first. -/
theorem iotaCompletes : Obligations.IotaCompletes :=
  ⟨withImmediate_of_round_or_iota (op := .iota) rfl (.inr rfl), fun s r =>
    ⟨fun hr => ⟨_, _, exec_of_ready (.iota r) s hr, rfl, lane_iota_zero s.lanes _,
        fun _ => lane_iota_of_pos s.lanes _, exec_of_ready (.iota r) _ hr, iota_iota s.lanes _⟩,
      fun hr => exec_of_one_error (i := .iota r) rfl hr.not_ge⟩⟩

end Sys2Proof.Machine
end

section
/-! SUPPORT. Sequences of permutation commands (41_permutation.md R127, R130, R135), with O29 and O30. -/

namespace Sys2Proof.Machine

open Sys2Proof.Slice0

theorem runCommands_cons_of_ready {i : Instr} {s : State} (h : ready i s) (is : List Instr) :
    runCommands (i :: is) s = runCommands is (complete (effect i s)) := by
  rw [runCommands, exec_of_ready i s h]

/-- Settles O29: four completions in a row, the last that of ROUND r, since Round is ι after χ after ρπ after θ
(R126). -/
theorem stepCommandsComposeToRound : Obligations.StepCommandsComposeToRound := by
  intro s r hr
  refine ⟨complete (effect (.round r) s), ?_, exec_of_ready (.round r) s hr, rfl⟩
  rw [runCommands_cons_of_ready (i := .theta) trivial, runCommands_cons_of_ready (i := .rhopi) trivial,
    runCommands_cons_of_ready (i := .chi) trivial, runCommands_cons_of_ready (i := .iota r) hr]
  rfl

theorem runCommands_round_cons {r : Nat} (hr : r ≤ 23) (is : List Instr) (s : State) :
    runCommands (.round (BitVec.ofNat 8 r) :: is) s =
      runCommands is (complete { s with lanes := keccakRound s.lanes r }) := by
  have himm : (BitVec.ofNat 8 r).toNat = r := Nat.mod_eq_of_lt (by omega)
  rw [runCommands_cons_of_ready (i := .round _) (himm.le.trans hr), effect, himm]

/-- ROUND commands with indices up to 23, at least one of them, leave the fold of the rounds. -/
theorem runCommands_rounds (r : Nat) (rs : List Nat) (s : State) (h : ∀ k ∈ r :: rs, k ≤ 23) :
    runCommands ((r :: rs).map fun k => .round (BitVec.ofNat 8 k)) s =
      some (complete { s with lanes := (r :: rs).foldl keccakRound s.lanes }) := by
  induction rs generalizing r s with
  | nil => exact runCommands_round_cons (h r List.mem_cons_self) [] s
  | cons q qs ih =>
    obtain ⟨hr, hqs⟩ := List.forall_mem_cons.mp h
    rw [List.map_cons, runCommands_round_cons hr, ih q _ hqs]
    rfl

/-- Settles O30: the rounds 0 to 23 in order are the fold that PERMUTE is (`permute_eq_foldl`). -/
theorem roundsComposeToPermute : Obligations.RoundsComposeToPermute := by
  intro s
  refine ⟨_, runCommands_rounds 0 ((List.range 23).map Nat.succ) s (by simp), ?_⟩
  rw [← List.range_succ_eq_map, ← permute_eq_foldl]
  exact exec_of_ready .permute s trivial

end Sys2Proof.Machine
end

section
/-! SUPPORT. The tables of constants and their generators (41_permutation.md R120, R121), with O28. -/

namespace Sys2Proof.Machine

open Sys2Proof.Slice0

/-- The lane with bit 2^j - 1 set for each j below n with `bit j` (R120). -/
def constantOfBits (bit : Nat → Bool) : Nat → Lane
  | 0 => 0
  | n + 1 => constantOfBits bit n ||| if bit n then BitVec.twoPow 64 (2 ^ n - 1) else 0

theorem getLsbD_constantOfBits (bit : Nat → Bool) (n : Nat) {b : Nat} (hb : b < 64) :
    (constantOfBits bit n).getLsbD b = true ↔ ∃ j, j < n ∧ b = 2 ^ j - 1 ∧ bit j = true := by
  induction n with
  | zero => simp [constantOfBits]
  | succ n ih =>
    have hlast : (if bit n then BitVec.twoPow 64 (2 ^ n - 1) else 0).getLsbD b = true ↔
        b = 2 ^ n - 1 ∧ bit n = true := by
      cases bit n
      · simp
      · simp only [if_true, BitVec.getLsbD_twoPow, Bool.and_eq_true, decide_eq_true_eq, and_true]
        omega
    rw [constantOfBits, BitVec.getLsbD_or, Bool.or_eq_true, ih, hlast]
    simp only [Nat.exists_lt_succ_right]

/-- The generator's bit j of round r (R120). -/
def roundBit (r j : Nat) : Bool := lfsr ((j + 7 * r) % 255) % 2 = 1

/-- The 24 rows of the table, each against the seven bits of its round. -/
theorem roundConstant_eq_generated : ∀ r, r < 24 → roundConstant r = constantOfBits (roundBit r) 7 := by
  decide

/-- The 24 positions of the walk, each against its triangular number. -/
theorem rotationOffset_rotWalk :
    ∀ t, t < 24 → rotationOffset ((rotWalk t).1 + 5 * (rotWalk t).2) = ((t + 1) * (t + 2) / 2) % 64 := by
  decide

/-- Settles O28: each table entry evaluated against its generator, and the bits of a generated constant. -/
theorem tablesMatchTheirGenerators : Obligations.TablesMatchTheirGenerators := by
  refine ⟨fun r hr b hb => ?_, rfl, rotationOffset_rotWalk⟩
  rw [roundConstant_eq_generated r hr, getLsbD_constantOfBits _ _ hb]
  simp only [roundBit, decide_eq_true_eq, Nat.lt_succ_iff]

end Sys2Proof.Machine
end

section
/-! SUPPORT. Blocks, padding, the squeeze view and the sponge state byte by byte (42_sponge.md R161 to R165), with O31
to O35. -/

namespace Sys2Proof.Machine

theorem getD_lane_bytes (b : Bytes) (i : Nat) {k : Nat} (hk : k < 8) :
    ((b.drop (8 * i)).take 8).getD k 0 = b.getD (8 * i + k) 0 := by
  rw [List.getD_eq_getElem?_getD, List.getElem?_take_of_lt hk, List.getElem?_drop, ← List.getD_eq_getElem?_getD]

/-- Byte k of lane i of a block is byte 8i + k of the block (R161). -/
theorem laneByte_lanesLE (b : Bytes) (i : Nat) {k : Nat} (hk : k < 8) :
    laneByte (lanesLE b i) k = b.getD (8 * i + k) 0 :=
  (laneByte_leValue _ k hk).trans (getD_lane_bytes b i hk)

/-- A lane that the block fills is the little-endian sum of its eight bytes (R161). -/
theorem toNat_lanesLE {b : Bytes} {i : Nat} (hi : 8 * i + 8 ≤ b.length) :
    (lanesLE b i).toNat = ((List.range 8).map fun k => (b.getD (8 * i + k) 0).toNat * 2 ^ (8 * k)).sum := by
  have hlen : ((b.drop (8 * i)).take 8).length = 8 := by
    rw [List.length_take, List.length_drop]
    omega
  have hsum := (leValue_toNat _ hlen.le).1
  rw [hlen] at hsum
  refine hsum.trans (congrArg List.sum (List.map_congr_left fun k hk => ?_))
  rw [getD_lane_bytes b i (List.mem_range.mp hk)]

/-- Settles O31: `laneByte_lanesLE` at lane k / 8, and the sum of a lane's bytes. -/
theorem blockBytesBecomeLanes : Obligations.BlockBytesBecomeLanes := by
  refine fun b hb => ⟨fun k hk => ?_, fun i hi => toNat_lanesLE (by omega)⟩
  rw [← laneByte_eq_extract, laneByte_lanesLE b _ (Nat.mod_lt k (by decide)), Nat.div_add_mod,
    List.getD_eq_getElem _ _ (hb ▸ hk), List.getElem?_eq_getElem (hb ▸ hk)]

/-- Settles O32: AbsorbBlock is the permutation of an array given lane by lane. -/
theorem absorbBlockXorsTheRate : Obligations.AbsorbBlockXorsTheRate := by
  refine fun A b => ⟨_, rfl, fun i hi => ?_, fun i hlo hi => ?_⟩
  · rw [lane_mkLanes _ i (by omega), if_pos hi]
  · rw [lane_mkLanes _ i hi, if_neg (by omega)]

/-- Settles O33: each clause is one case of the two XORs of `pad_getElem?`. -/
theorem paddedBlockBytes : Obligations.PaddedBlockBytes := by
  refine fun q hq => ⟨pad_length q hq, fun k hk => ?_, fun hlt => ⟨?_, ?_⟩, fun hfull => ?_, fun k hlo hhi => ?_⟩
  · rw [pad_getElem? q hq k (by omega), if_neg (by omega), if_neg (by omega), List.getD_eq_getElem _ _ hk,
      List.getElem?_eq_getElem hk, BitVec.ofNat_eq_ofNat, BitVec.xor_zero, BitVec.xor_zero]
  · rw [pad_getElem? q hq _ (by omega), List.getD_eq_default _ _ le_rfl, if_pos rfl, if_neg (by omega)]
    rfl
  · rw [pad_getElem? q hq 135 (by decide), List.getD_eq_default _ _ (by omega), if_neg (by omega), if_pos rfl]
    rfl
  · rw [pad_getElem? q hq 135 (by decide), List.getD_eq_default _ _ (by omega), if_pos hfull.symm, if_pos rfl]
    rfl
  · rw [pad_getElem? q hq k (by omega), List.getD_eq_default _ _ (by omega), if_neg (by omega), if_neg (by omega)]
    rfl

theorem ofFn_eq_map_range {α : Type} (n : Nat) (f : Nat → α) :
    List.ofFn (fun i : Fin n => f i.val) = (List.range n).map f := by
  rw [← List.map_coe_finRange_eq_range, List.map_map, List.ofFn_eq_map]
  rfl

/-- The squeeze view is the eight bytes of each lane of the rate in turn (R164). -/
theorem toList_squeezeBytes (A : Lanes) :
    (squeezeBytes A).toList = ((List.range 17).map fun i => le64bytes (lane A i)).flatten := by
  have hview : (squeezeBytes A).toList =
      List.ofFn fun k : Fin (17 * 8) => laneByte (lane A (k.val / 8)) (k.val % 8) := by
    unfold squeezeBytes
    exact Vector.toList_ofFn
  rw [hview, List.ofFn_mul, ← ofFn_eq_map_range]
  refine congrArg (fun f => (List.ofFn f).flatten) (funext fun i => ?_)
  rw [le64bytes, leBytes, ← ofFn_eq_map_range]
  refine congrArg List.ofFn (funext fun j => ?_)
  rw [show (i.val * 8 + j.val) / 8 = i.val by omega, show (i.val * 8 + j.val) % 8 = j.val by omega]

/-- The capacity lanes never appear in the squeeze view (R164). -/
theorem squeezeBytes_congr_rate {A B : Lanes} (h : ∀ i, i < 17 → lane B i = lane A i) :
    squeezeBytes B = squeezeBytes A :=
  block_ext fun k hk => by
    rw [blockByte_squeezeBytes B k hk, blockByte_squeezeBytes A k hk, h _ (by omega)]

/-- Settles O34: the view lane by lane, and its independence of the capacity. -/
theorem squeezeViewIsTheRate : Obligations.SqueezeViewIsTheRate := fun A =>
  ⟨toList_squeezeBytes A, fun _ => squeezeBytes_congr_rate⟩

/-- Settles O35: `spongeState_blocks`, and the first 32 of the 136 bytes of the view. -/
theorem spongeStateOfMessage : Obligations.SpongeStateOfMessage := by
  refine ⟨spongeState_blocks, fun m => ⟨?_, fun k hk => ?_⟩⟩
  · rw [keccak256, List.length_take, Vector.length_toList]
    rfl
  · rw [keccak256, List.getElem?_take_of_lt hk, toList_getElem?_eq _ k (by omega)]

end Sys2Proof.Machine
end

section
/-! SUPPORT. The sponge commands (42_sponge.md R168 to R172), with O21 to O25. -/

namespace Sys2Proof.Machine

open Sys2Proof.Slice0

/-- Settles O21: INIT is `startPhase .absorbing` and the completion. -/
theorem initCompletes : Obligations.InitCompletes :=
  ⟨noImmediate_of_takesImm_false (op := .init) rfl rfl, fun s =>
    ⟨_, exec_of_ready .init s trivial, rfl, fun i _ => lane_zeroLanes i, fun k _ => blockByte_zeroBlock k⟩⟩

/-- Settles O22: ABSORB is ready in ABSORBING, and PHASE is its one error. -/
theorem absorbCompletes : Obligations.AbsorbCompletes :=
  ⟨noImmediate_of_takesImm_false (op := .absorb) rfl rfl, fun s =>
    ⟨exec_of_ready .absorb s, exec_of_one_error (i := .absorb) rfl⟩⟩

/-- The words of FINAL: a length above 135 is BAD_LEN. -/
theorem withImmediate_of_final : WithImmediate 0x22 135 .badLen .final :=
  withImmediate_of_takesImm (op := .final) rfl rfl
    (fun m hm => (wf_buildInstr_iff .final m).mpr ⟨fun _ => hm, by simp⟩) fun _ => decode_badLen

theorem exec_final_of_badLen {l : Byte} (s : State) (hl : 135 < l.toNat) :
    exec (.final l) s = .next (Raised .badLen s) := if_pos hl

/-- BAD_LEN comes before PHASE (60_exceptions.md R234). -/
theorem exec_final_of_wrong_phase {l : Byte} {s : State} (hl : l.toNat ≤ 135) (hp : s.phase ≠ .absorbing) :
    exec (.final l) s = .next (Raised .phase s) := (if_neg hl.not_gt).trans (if_pos hp)

/-- The effect of FINAL L reads only the first L bytes of IN, and keeps IN (R170). -/
theorem effect_final_inBuf {l : Byte} (hl : l.toNat ≤ 135) {s : State} {b : Block}
    (h : ∀ k, k < l.toNat → blockByte b k = blockByte s.inBuf k) :
    effect (.final l) { s with inBuf := b } = { effect (.final l) s with inBuf := b } := by
  simp only [effect, squeezeOut, absorbInto, toList_take_congr (by omega) h]

/-- Settles O23: the three clauses are the checks of FINAL in their order, and `effect_final_inBuf`. -/
theorem finalCompletes : Obligations.FinalCompletes := by
  refine ⟨withImmediate_of_final, fun s l =>
    ⟨fun hl hp => ⟨_, exec_of_ready (.final l) s ⟨hl, hp⟩, rfl, fun b hb => ?_⟩, exec_final_of_wrong_phase,
      exec_final_of_badLen s⟩⟩
  rw [exec_of_ready (.final l) { s with inBuf := b } ⟨hl, hp⟩, effect_final_inBuf hl hb]
  rfl

/-- Settles O24: SQUEEZE is ready in SQUEEZED, and PHASE is its one error. -/
theorem squeezeCompletes : Obligations.SqueezeCompletes :=
  ⟨noImmediate_of_takesImm_false (op := .squeeze) rfl rfl, fun s =>
    ⟨exec_of_ready .squeeze s, exec_of_one_error (i := .squeeze) rfl⟩⟩

/-- Settles O25: HASH is ready when its range check passes, the message is `srcBytes`, and RANGE is its one error. -/
theorem hashCompletes : Obligations.HashCompletes := by
  refine ⟨noImmediate_of_takesImm_false (op := .hash) rfl rfl, fun s => ⟨fun hr => ?_, fun hr => ?_⟩⟩
  · refine ⟨srcBytes s, _, exec_of_ready .hash s ((srcInRange_iff s).mpr hr), srcBytes_length s,
      memRead_getElem? s _ _, ?_⟩
    rw [← srcBytes_length s]
    rfl
  · exact exec_of_one_error (i := .hash) rfl fun h => hr.not_ge ((srcInRange_iff s).mp h)

end Sys2Proof.Machine
end

section
/-! SUPPORT. A message streamed block by block against one hashed from DMEM, and the squeeze stream (42_sponge.md R166,
R171, R173), with O36 and O37. -/

namespace Sys2Proof.Machine

open Sys2Proof.Slice0

/-- The message of whole blocks and the first l bytes of a last one (R173). -/
def streamed (blocks : List Block) (last : Block) (l : Nat) : Bytes :=
  (blocks.map Vector.toList).flatten ++ last.toList.take l

theorem length_of_mem_map_toList {blocks : List Block} : ∀ b ∈ blocks.map Vector.toList, b.length = 136 := by
  simp

theorem length_streamed (blocks : List Block) (last : Block) {l : Nat} (hl : l ≤ 136) :
    (streamed blocks last l).length = 136 * blocks.length + l := by
  rw [streamed, List.length_append, flatten_length_of_blocks _ length_of_mem_map_toList, List.length_map,
    List.length_take, Vector.length_toList, Nat.min_eq_left hl]

/-- Byte k of a streamed message is byte k mod 136 of its block k / 136. -/
theorem streamed_getElem? (blocks : List Block) (last : Block) {l k : Nat} (hl : l ≤ 136)
    (hk : k < 136 * blocks.length + l) :
    (streamed blocks last l)[k]? = some (blockByte (blocks.getD (k / 136) last) (k % 136)) := by
  induction blocks generalizing k with
  | nil =>
    have hkl : k < l := by simpa using hk
    have hstream : streamed [] last l = last.toList.take l := rfl
    rw [hstream, List.getElem?_take_of_lt hkl, toList_getElem?_eq last k (by omega), List.getD_nil,
      Nat.mod_eq_of_lt (by omega)]
  | cons b bs ih =>
    have hstream : streamed (b :: bs) last l = b.toList ++ streamed bs last l := by simp [streamed]
    rw [hstream]
    by_cases hfirst : k < 136
    · rw [List.getElem?_append_left (by simpa using hfirst), toList_getElem?_eq b k hfirst,
        Nat.div_eq_of_lt hfirst, Nat.mod_eq_of_lt hfirst, List.getD_cons_zero]
    · obtain ⟨j, rfl⟩ := Nat.exists_eq_add_of_le' (Nat.le_of_not_lt hfirst)
      rw [List.getElem?_append_right (by simp), Vector.length_toList, Nat.add_sub_cancel,
        ih (by rw [List.length_cons] at hk; omega), Nat.add_mod_right, Nat.add_div_right j (by decide),
        List.getD_cons_succ]

/-- The message of HASH is the streamed one when the bytes in DMEM are its bytes. -/
theorem srcBytes_eq_streamed {h : State} {blocks : List Block} {last : Block} {l : Nat} (hl : l ≤ 136)
    (hlen : h.srcLen.toNat = 136 * blocks.length + l)
    (hbytes : ∀ k, k < h.srcLen.toNat →
      dmemRead h (h.srcAddr.toNat + k) = blockByte (blocks.getD (k / 136) last) (k % 136)) :
    srcBytes h = streamed blocks last l := by
  refine List.ext_getElem?' fun k hk => ?_
  have hk' : k < h.srcLen.toNat := by simpa [length_streamed _ _ hl, ← hlen] using hk
  rw [srcBytes, memRead_getElem? h _ _ k hk', hbytes k hk', streamed_getElem? _ _ hl (hlen ▸ hk')]

/-- SpongeState of a streamed message: its blocks in order, then the padded rest of the last one (R165). -/
theorem spongeState_streamed (blocks : List Block) (last : Block) {l : Nat} (hl : l ≤ 135) :
    spongeState (streamed blocks last l) =
      absorbBlock ((blocks.map Vector.toList).foldl absorbBlock zeroLanes) (pad (last.toList.take l)) :=
  spongeState_blocks _ _ length_of_mem_map_toList (by rw [List.length_take]; omega)

/-- Blocks written to IN and absorbed one by one in ABSORBING: all complete, S has them in order and BLKCNT their
number (R169). -/
theorem absorbBlocks_of_absorbing (blocks : List Block) {s : State} (hp : s.phase = .absorbing) :
    ∃ t, absorbBlocks blocks s = some t ∧ t.phase = .absorbing ∧
      t.lanes = (blocks.map Vector.toList).foldl absorbBlock s.lanes ∧
      t.blkCnt = s.blkCnt + BitVec.ofNat 32 blocks.length := by
  induction blocks generalizing s with
  | nil => exact ⟨s, rfl, hp, rfl, (BitVec.add_zero _).symm⟩
  | cons b bs ih =>
    obtain ⟨t, ht, hphase, hlanes, hcount⟩ := ih (s := complete (effect .absorb { s with inBuf := b })) hp
    refine ⟨t, ?_, hphase, hlanes, ?_⟩
    · rw [absorbBlocks, exec_of_ready .absorb { s with inBuf := b } hp]
      exact ht
    · rw [hcount, List.length_cons, Nat.add_comm, BitVec.ofNat_add, ← BitVec.add_assoc]
      rfl

/-- Settles O36: streaming leaves the sponge state of `streamed`, and `streamed` is the message of HASH. -/
theorem streamingEqualsHashing : Obligations.StreamingEqualsHashing := by
  intro s h blocks last l hl hrange hlen hbytes
  have hmsg : srcBytes h = streamed blocks last l.toNat := srcBytes_eq_streamed (by omega) hlen hbytes
  obtain ⟨s1, hs1, hphase, hlanes, hcount⟩ :=
    absorbBlocks_of_absorbing blocks (s := complete (effect .init s)) rfl
  have hstate : (effect (.final l) { s1 with inBuf := last }).lanes = spongeState (srcBytes h) := by
    rw [hmsg, spongeState_streamed blocks last hl]
    exact congrArg (absorbBlock · _) hlanes
  have hview : (effect (.final l) { s1 with inBuf := last }).outBuf = squeezeBytes (spongeState (srcBytes h)) :=
    congrArg squeezeBytes hstate
  have hblkCnt : s1.blkCnt + 1 = blockCount (srcBytes h).length := by
    rw [hcount, srcBytes_length, hlen, blockCount, Nat.mul_add_div (by decide), Nat.div_eq_of_lt (by omega),
      BitVec.ofNat_add]
    exact congrArg (· + 1) (BitVec.zero_add _)
  exact ⟨_, s1, _, _, exec_of_ready .init s trivial, hs1, exec_of_ready (.final l) _ ⟨hl, hphase⟩,
    exec_of_ready .hash h ((srcInRange_iff h).mpr hrange), hstate, hview, hblkCnt, rfl,
    congrArg (fun o : Block => o.toList.take 32) hview⟩

/-- Settles O37, by induction on the number of commands: each is ready and leaves the premises for the next. -/
theorem squeezesYieldTheStream : Obligations.SqueezesYieldTheStream := by
  intro k
  induction k with
  | zero =>
    intro s _ _ hout
    exact ⟨s, rfl, by rw [Function.iterate_zero, id_eq, ← hout]⟩
  | succ k ih =>
    intro s hp hb _
    obtain ⟨t, hrun, ht⟩ := ih (complete (effect .squeeze s)) hp rfl rfl
    refine ⟨t, ?_, ?_⟩
    · rw [List.replicate_succ, runCommands_cons_of_ready (i := .squeeze) hp, hrun]
    · rw [ht, Function.iterate_succ_apply]
      simp [effect, squeezeOut, complete, hb]

end Sys2Proof.Machine
end

section
/-! SUPPORT. The proof-blob packer (43_packer.md), with O26, O27 and O38 to O40. -/

namespace Sys2Proof.Machine

open Sys2Proof.Slice0

variable {s : State}

/-! ### The blob byte by byte -/

/-- Byte k of a count written big-endian (00_scope.md R14). -/
theorem be32bytes_ofNat_getElem? (n : Nat) {k : Nat} (hk : k < 4) :
    (be32bytes (BitVec.ofNat 32 n))[k]? = some (BitVec.ofNat 8 (n / 256 ^ (3 - k))) := by
  interval_cases k <;>
    simp only [be32bytes, List.getElem?_cons_zero, List.getElem?_cons_succ, Option.some.injEq, ← BitVec.toNat_inj,
      BitVec.extractLsb'_toNat, BitVec.toNat_ofNat, Nat.shiftRight_eq_div_pow] <;>
    omega

/-- The four bytes of a word read big-endian are the word (00_scope.md R14). -/
theorem foldl_be32bytes (v : Word) : (be32bytes v).foldl (fun a b => 256 * a + b.toNat) 0 = v.toNat := by
  have hv := v.isLt
  simp only [be32bytes, List.foldl_cons, List.foldl_nil, BitVec.extractLsb'_toNat, Nat.shiftRight_eq_div_pow]
  omega

/-- Lengths that pack are multiples of 32, and their field count fits 32 bits (43_packer.md R201). -/
theorem lengths_of_packProofBlob_some {pi pf blob : Bytes} (h : packProofBlob pi pf = some blob) :
    pi.length % 32 = 0 ∧ pf.length % 32 = 0 ∧ pf.length / 32 + pi.length / 32 < 2 ^ 32 := by
  have hok := mt (packProofBlob_none_iff pi pf).mpr (by simp [h])
  omega

/-- Settles O38: FormatError is `packProofBlob_none_iff`, and a blob is its three parts, whose count does not wrap. -/
theorem proofBlobLayout : Obligations.ProofBlobLayout := by
  refine fun pi pf => ⟨packProofBlob_none_iff pi pf, fun blob h => ?_⟩
  obtain ⟨hpi, hpf, hcount⟩ := lengths_of_packProofBlob_some h
  rw [packProofBlob_some h, List.append_assoc]
  refine ⟨?_, ?_, ?_⟩
  · simp only [List.length_append, be32bytes_length]
    omega
  · rw [List.take_left' (be32bytes_length _), foldl_be32bytes, BitVec.toNat_ofNat, Nat.mod_eq_of_lt hcount,
      Nat.add_comm]
  · exact List.drop_left' (be32bytes_length _)

theorem blobOf_getElem?_count {k : Nat} (hk : k < 4) :
    (blobOf s)[k]? = some (BitVec.ofNat 8 ((s.piLen.toNat / 32 + s.pfLen.toNat / 32) / 256 ^ (3 - k))) := by
  rw [blobOf, List.append_assoc, List.getElem?_append_left hk, be32bytes_ofNat_getElem? _ hk, Nat.add_comm]

theorem blobOf_getElem?_pi {k : Nat} (hk : k < s.piLen.toNat) :
    (blobOf s)[4 + k]? = some (dmemRead s (s.piAddr.toNat + k)) := by
  rw [blobOf, List.append_assoc, List.getElem?_append_right (by simp), be32bytes_length, Nat.add_sub_cancel_left,
    List.getElem?_append_left (by simpa using hk), piBytes, memRead_getElem? s _ _ k hk]

theorem blobOf_getElem?_pf {k : Nat} (hk : k < s.pfLen.toNat) :
    (blobOf s)[4 + s.piLen.toNat + k]? = some (dmemRead s (s.pfAddr.toNat + k)) := by
  have hlen : (be32bytes (BitVec.ofNat 32 (s.pfLen.toNat / 32 + s.piLen.toNat / 32)) ++ piBytes s).length =
      4 + s.piLen.toNat := by simp
  rw [blobOf, List.getElem?_append_right (by omega), hlen, Nat.add_sub_cancel_left, pfBytes,
    memRead_getElem? s _ _ k hk]

/-! ### The operands that pass FORMAT and RANGE -/

/-- Each source lies inside DMEM, which has at most 2^24 bytes (00_scope.md R6). -/
theorem sourceLengths_le (hr : sourcesInRange s = true) : s.piLen.toNat ≤ 2 ^ 24 ∧ s.pfLen.toNat ≤ 2 ^ 24 := by
  rw [sourcesInRange_iff] at hr
  have hd := dmemBytes_le s
  omega

/-- BLOB_LEN does not wrap (10_state.md R34). -/
theorem toNat_ofNat_blobLength (hr : sourcesInRange s = true) :
    (BitVec.ofNat 32 (blobLength s)).toNat = blobLength s := by
  obtain ⟨hpi, hpf⟩ := sourceLengths_le hr
  exact Nat.mod_eq_of_lt (by rw [blobLength]; omega)

/-- Settles O39: the bounds are those of the two lengths, and FORMAT alone gives the blob. -/
theorem fieldCountAlwaysFits : Obligations.FieldCountAlwaysFits := by
  intro s hf hr
  obtain ⟨hpi, hpf⟩ := sourceLengths_le hr
  exact ⟨by omega, by rw [blobLength]; omega, blobOf s, packProofBlob_of_checks s hf⟩

/-! ### PACK -/

/-- The two range checks of PACK as one (43_packer.md R206). -/
theorem packInRange_iff (s : State) : sourcesInRange s = true ∧ destInRange s = true ↔
    s.piAddr.toNat + s.piLen.toNat ≤ dmemBytes s ∧ s.pfAddr.toNat + s.pfLen.toNat ≤ dmemBytes s ∧
      s.dstAddr.toNat + (4 + s.piLen.toNat + s.pfLen.toNat) ≤ dmemBytes s := by
  rw [sourcesInRange_iff, destInRange_iff, and_assoc]

theorem exec_pack_of_bad_format (hf : ¬formatOk s = true) : exec .pack s = .next (Raised .format s) :=
  if_pos (Bool.eq_false_of_not_eq_true hf)

theorem exec_pack_of_out_of_range (hf : formatOk s = true) (hr : ¬(sourcesInRange s = true ∧ destInRange s = true)) :
    exec .pack s = .next (Raised .range s) :=
  (if_neg (by simp [hf])).trans
    (if_pos ((not_and_or.mp hr).imp Bool.eq_false_of_not_eq_true Bool.eq_false_of_not_eq_true))

theorem exec_pack_of_overlap (hf : formatOk s = true) (hr : sourcesInRange s = true ∧ destInRange s = true)
    (ho : destOverlaps s = true) : exec .pack s = .next (Raised .overlap s) :=
  (if_neg (by simp [hf])).trans ((if_neg (by simp [hr])).trans (if_pos ho))

/-- After PACK the blob stands at DST_ADDR (43_packer.md R206). -/
theorem dmemRead_pack {k : Nat} {b : Byte} (h : (blobOf s)[k]? = some b) :
    dmemRead (complete (effect .pack s)) (s.dstAddr.toNat + k) = b := by
  obtain ⟨hk, rfl⟩ := List.getElem?_eq_some_iff.mp h
  exact dmemRead_memWrite_inside s.dstAddr.toNat (blobOf s) s k hk

/-- A byte of DMEM below or above the blob is as before (43_packer.md R206). -/
theorem dmemRead_pack_outside {a : Nat} (h : a < s.dstAddr.toNat ∨ s.dstAddr.toNat + blobLength s ≤ a) :
    dmemRead (complete (effect .pack s)) a = dmemRead s a :=
  dmemRead_memWrite_outside s.dstAddr.toNat (blobOf s) s a (by rwa [blobOf_length])

/-- Settles O26: the first three clauses are the checks of PACK in their order; past them the effect is
`effect_pack`, and the bytes of DMEM are `dmemRead_pack` and `dmemRead_pack_outside`. -/
theorem packCompletes : Obligations.PackCompletes := by
  refine ⟨noImmediate_of_takesImm_false (op := .pack) rfl rfl, fun s => ⟨fun hf => ?_, fun hf hr => ?_,
    fun hf hr ho => ?_, fun hf hr ho => ?_⟩⟩
  · exact exec_pack_of_bad_format (mt (formatOk_iff s).mp hf)
  · exact exec_pack_of_out_of_range ((formatOk_iff s).mpr hf) (mt (packInRange_iff s).mp hr)
  · exact exec_pack_of_overlap ((formatOk_iff s).mpr hf) ((packInRange_iff s).mpr hr) ((destOverlaps_iff s).mpr ho)
  · obtain ⟨hsrc, hdst⟩ := (packInRange_iff s).mpr hr
    have hapart : destOverlaps s = false := Bool.eq_false_of_not_eq_true (mt (destOverlaps_iff s).mp ho)
    refine ⟨_, exec_of_ready .pack s ⟨(formatOk_iff s).mpr hf, hsrc, hdst, hapart⟩, by rw [effect_pack]; rfl,
      fun k hk => dmemRead_pack (blobOf_getElem?_count hk), fun k hk => ?_, fun k hk => ?_,
      fun a => dmemRead_pack_outside⟩
    · rw [Nat.add_assoc]
      exact dmemRead_pack (blobOf_getElem?_pi hk)
    · rw [Nat.add_assoc _ 4, Nat.add_assoc]
      exact dmemRead_pack (blobOf_getElem?_pf hk)

/-! ### PROOFID -/

/-- PROOFID's effect as a plain update: S, OUT, BLKCNT, PHASE, FIELDS and BLOB_LEN (43_packer.md R207). -/
theorem effect_proofid (s : State) : effect .proofid s =
    { s with
      lanes := spongeState (blobOf s), outBuf := squeezeBytes (spongeState (blobOf s))
      blkCnt := blockCount (blobLength s), phase := .squeezed
      fields := BitVec.ofNat 32 (s.piLen.toNat / 32 + s.pfLen.toNat / 32)
      blobLen := BitVec.ofNat 32 (blobLength s) } := by
  simp only [effect, recordBlob, finishHash, blobOf_length]

theorem exec_proofid_of_bad_format (hf : ¬formatOk s = true) : exec .proofid s = .next (Raised .format s) :=
  if_pos (Bool.eq_false_of_not_eq_true hf)

theorem exec_proofid_of_out_of_range (hf : formatOk s = true) (hr : ¬sourcesInRange s = true) :
    exec .proofid s = .next (Raised .range s) :=
  (if_neg (by simp [hf])).trans (if_pos (Bool.eq_false_of_not_eq_true hr))

/-- Settles O27: the first two clauses are the checks of PROOFID in their order; past them the blob is `blobOf` and the
effect `effect_proofid`. -/
theorem proofidCompletes : Obligations.ProofidCompletes := by
  refine ⟨noImmediate_of_takesImm_false (op := .proofid) rfl rfl, fun s => ⟨fun hf => ?_, fun hf hr => ?_,
    fun hf hr => ?_⟩⟩
  · exact exec_proofid_of_bad_format (mt (formatOk_iff s).mp hf)
  · exact exec_proofid_of_out_of_range ((formatOk_iff s).mpr hf) (mt (sourcesInRange_iff s).mp hr)
  · have hok := (formatOk_iff s).mpr hf
    exact ⟨piBytes s, pfBytes s, blobOf s, _, exec_of_ready .proofid s ⟨hok, (sourcesInRange_iff s).mpr hr⟩,
      piBytes_length s, memRead_getElem? s _ _, pfBytes_length s, memRead_getElem? s _ _,
      packProofBlob_of_checks s hok, by rw [effect_proofid]; rfl⟩

/-! ### HASH of a packed blob -/

/-- A command that leaves ERR clear passed its checks (60_exceptions.md R232). -/
theorem ready_of_err_false {i : Instr} {t : State} (h : exec i s = .next t) (he : t.err = false) :
    ready i s ∧ t = complete (effect i s) := by
  rcases exec_inversion h with ⟨e, -, -, rfl⟩ | hready
  · exact absurd he nofun
  · exact hready

/-- The host hands the blob of a PACK to HASH: SRC_ADDR and SRC_LEN from DST_ADDR and BLOB_LEN (42_sponge.md R172). -/
def blobAsSource (t : State) : State := { t with srcAddr := t.dstAddr, srcLen := t.blobLen }

theorem blobAsSource_pack_srcAddr : (blobAsSource (complete (effect .pack s))).srcAddr = s.dstAddr := by
  rw [effect_pack]
  rfl

theorem blobAsSource_pack_srcLen (hr : sourcesInRange s = true) :
    (blobAsSource (complete (effect .pack s))).srcLen.toNat = blobLength s := by
  rw [effect_pack]
  exact toNat_ofNat_blobLength hr

/-- The destination that PACK checked is the source that HASH checks. -/
theorem srcInRange_blobAsSource_pack (hr : sourcesInRange s = true) (hd : destInRange s = true) :
    srcInRange (blobAsSource (complete (effect .pack s))) = true := by
  have hsize : dmemBytes (blobAsSource (complete (effect .pack s))) = dmemBytes s := by rw [effect_pack]; rfl
  rw [srcInRange_iff, hsize, blobAsSource_pack_srcAddr, blobAsSource_pack_srcLen hr]
  exact (destInRange_iff s).mp hd

/-- The message HASH reads is the blob that PACK wrote. -/
theorem srcBytes_blobAsSource_pack (hr : sourcesInRange s = true) :
    srcBytes (blobAsSource (complete (effect .pack s))) = blobOf s := by
  rw [srcBytes, blobAsSource_pack_srcAddr, blobAsSource_pack_srcLen hr, ← blobOf_length]
  exact memRead_memWrite s.dstAddr.toNat (blobOf s) s

/-- Settles O40: PROOFID and HASH both finish the hash of `blobOf s`, HASH by `srcBytes_blobAsSource_pack`. -/
theorem hashOfPackedBlobIsProofid : Obligations.HashOfPackedBlobIsProofid := by
  intro s t _ hpack herr
  obtain ⟨⟨hf, hr, hd, -⟩, rfl⟩ := ready_of_err_false hpack herr
  have hhash := exec_of_ready .hash _ (srcInRange_blobAsSource_pack hr hd)
  rw [effect, srcBytes_blobAsSource_pack hr] at hhash
  exact ⟨_, _, exec_of_ready .proofid s ⟨hf, hr⟩, hhash, rfl, rfl, rfl, rfl, rfl⟩

end Sys2Proof.Machine
end

section
/-! SUPPORT. The errors of the decoder and of the commands against the spec's table (60_exceptions.md R235), with O8. -/

namespace Sys2Proof.Machine

open Sys2Proof.Slice0

variable {s t : State} {w : Word} {i : Instr} {e : ErrCode}

/-- The table's row for a command is RESERVED_BITS, which the decoder can report for every opcode, and then the errors
of the command's own checks. -/
theorem errorsOf_opc (i : Instr) : errorsOf i.opc = .reservedBits :: commandErrors i := by
  cases i <;> rfl

theorem opc_of_decode (h : decode w = .ok i) : i.opc = w.toNat % 256 := by
  obtain ⟨op, hop, -, -, -, -, rfl⟩ := decode_ok h
  exact opc_buildInstr hop _

theorem errorsOf_unassigned (hop : opcodeOf (opcField w) = none) : errorsOf (w.toNat % 256) = [.illegalOpcode] :=
  if_pos (mem_assignedOpcodes_iff.not.mpr (by simp [hop]))

/-- A reserved opcode gives ILLEGAL_OPCODE only; the decoder's BAD_LEN and BAD_ROUND are among the errors of the
command's own checks (log entry 19). -/
theorem decode_error_mem_errorsOf (h : decode w = .error e) : e ∈ errorsOf (w.toNat % 256) := by
  rcases decode_error h with ⟨hop, rfl⟩ | ⟨op, hop, he⟩
  · rw [errorsOf_unassigned hop]
    exact List.mem_singleton_self _
  · rw [← opc_buildInstr hop (immField w), errorsOf_opc]
    rcases he with rfl | ⟨rfl, rfl⟩ | ⟨rfl | rfl, rfl⟩
    · exact List.mem_cons_self
    all_goals simp [buildInstr, commandErrors]

/-- A command keeps ERRCODE, or records an error of its own checks. -/
theorem errCode_of_exec (h : exec i s = .next t) : t.errCode = s.errCode ∨ t.errCode ∈ commandErrors i := by
  rcases exec_inversion h with ⟨e, he, -, rfl⟩ | ⟨-, rfl⟩
  · exact .inr he
  · rw [effect_frame]
    exact .inl rfl

/-- Settles O8: the step of a due engine executes the decoded command or records the decoder's error, and the table
lists the errors of both. -/
theorem errorsByCommand : Obligations.ErrorsByCommand := by
  rintro s t ⟨hr, hb, hw⟩ hclean hstep
  rw [step_of_engine hr hb hw] at hstep
  rcases engineStep_cases s with ⟨i, hdec, hx⟩ | ⟨e, hdec, hx⟩ <;> rw [hx] at hstep
  · rw [← opc_of_decode hdec, errorsOf_opc]
    exact (errCode_of_exec hstep).imp (·.trans hclean) (List.mem_cons_of_mem _)
  · cases hstep
    exact .inr (decode_error_mem_errorsOf hdec)

end Sys2Proof.Machine
end

section
/-! SUPPORT. The machine right after reset, a pending reset, and an idle machine (70_reset_and_hazards.md R260 to R262),
with O55 to O57. -/

namespace Sys2Proof.Machine

/-! ### What reset leaves -/

/-- Reset leaves STATUS 0: PHASE is IDLE, no error is recorded, and no flag is set (20_memory.md R53). -/
theorem statusWord_reset : statusWord State.reset = 0 := by decide

/-- Reset lists no byte of DMEM, so each is the free value of its address (10_state.md R37). -/
theorem dmemRead_reset (a : Nat) : dmemRead State.reset a = Config.dmemByte State.reset.base 0 a := rfl

/-- Settles O55: S, IN and OUT are the all-zero arrays, and the registers are as `State.reset` lists them. -/
theorem resetValues : Obligations.ResetValues := by
  refine ⟨fun i _ => lane_zeroLanes i, rfl, fun k _ => ⟨blockByte_zeroBlock k, blockByte_zeroBlock k⟩, ?registers⟩
  case registers =>
    exact ⟨rfl, rfl, rfl, rfl, rfl, rfl, rfl, rfl, rfl, rfl, rfl, rfl, rfl, rfl, rfl, rfl, statusWord_reset,
      dmemRead_reset⟩

/-! ### The step of a pending reset and of an idle machine -/

/-- Settles O56: a pending reset has the first turn, and its step is `platformReset`; with no reset, no command and no
statement left it is nobody's turn. -/
theorem resetAndIdleSteps : Obligations.ResetAndIdleSteps :=
  ⟨fun _ => step_of_reset, fun _ => step_of_idle⟩

/-! ### The invariant at reset -/

/-- Reset meets each part of the invariant: nothing is listed in DMEM or among the host's variables, no command is in
flight, no error is recorded, and OUT, BLKCNT, FIELDS and BLOB_LEN are zero. -/
theorem inv_reset : Inv State.reset where
  memory := rfl
  inFlight := nofun
  errAgrees := iff_of_false nofun (fun h => h rfl)
  errCmd := nofun
  outZero _ := rfl
  idleCount _ := rfl
  blob := .inl ⟨rfl, rfl⟩
  hostVars := rfl

/-- Settles O57: it is `inv_reset`. -/
theorem resetMeetsInvariant : Obligations.ResetMeetsInvariant := inv_reset

end Sys2Proof.Machine
end
